-- ==== Sys2Proof/Word.lean ====
section
/-! DEFINITION. The words of CORE: the 64-bit generator word and the 8-bit cell. -/

namespace Sys2Proof

/-- The generator state, a seed, a stepped value, a response: 64 bits, unsigned (00_scope.md R5 `W`, 10_state.md R20). -/
abbrev Word64 := BitVec 64

/-- One cell of the destination, `CHAR_W` = 8 bits: a byte or a character slot (00_scope.md R6, 20_memory.md R40). -/
abbrev Byte := BitVec 8

end Sys2Proof
end

