-- ==== Sys2Proof/Config.lean ====
section
/-! DEFINITION. What is fixed when the block is built and shapes its types (`SIZE_W`, `BYTE_ORDER`), the signals the
environment drives, and the free values. `SIZE_W` is open in the spec and an argument `w` of the model: every type and
operation that depends on it takes it (00_scope.md R6). A type written without it stands at the default width. The numeric parameters `A`, `C`, ... stand in Machine/Params.lean. -/

namespace Sys2Proof

/-- The default of `SIZE_W`, the width of the size field and of `REM` and `OFF` (00_scope.md R6, D4): the width of the
machine under the host's fixed names (log 3). -/
abbrev Config.sizeW : Nat := 64

/-- A size, an offset, a remaining count: `SIZE_W` bits, unsigned (10_state.md R25, R26; 30_encoding.md R63). -/
abbrev Size (w : Nat := Config.sizeW) := BitVec w

/-- The parameter `BYTE_ORDER` (00_scope.md R6, 20_memory.md R44). -/
inductive ByteOrder
  | little
  | big
deriving DecidableEq, Repr

/-- A word of format `CMD`: `OP`, `SIZE`, `SEED`, in all `65 + SIZE_W` bits (30_encoding.md R61). -/
abbrev CmdWord (w : Nat := Config.sizeW) := BitVec (1 + w + 64)

/-- One sample of everything the environment drives: the reset input (70_reset_and_hazards.md R190), the CMD channel
(`valid` with its word, or not), OUT `ready`, RSP `ready` (30_encoding.md R60, R64, R67), and the platform's binding
of a destination to the sink, given by the cells it holds (20_memory.md R42, 70_reset_and_hazards.md R192; log 7). -/
structure Inputs (w : Nat := Config.sizeW) where
  reset    : Bool
  cmd      : Option (CmdWord w)
  outReady : Bool
  rspReady : Bool
  bind     : Option (List Host.Cell)
deriving DecidableEq, Repr, Inhabited

namespace Inputs

variable {w : Nat}

/-- Nothing offered, the sink and the requester willing: one moment of the environment of rule R158. -/
def willing : Inputs w :=
  { reset := false, cmd := none, outReady := true, rspReady := true, bind := none }

/-- The requester offers the command word `x`, everybody willing. -/
def offer (x : CmdWord w) : Inputs w :=
  { (willing : Inputs w) with cmd := some x }

end Inputs

/-- FREE VALUE (log 5): what the environment drives at the `n`-th sample when State lists no sample for it. The spec
says what CORE does for every behaviour of the environment (43_command_sequencer.md R140). -/
opaque Config.freeInputs : (w : Nat) → Nat → Inputs w

/-- FREE VALUE (log 2): what `S` holds after the reset input was asserted at the `n`-th sample: "any value"
(93_implementation_defined.md U4, 10_state.md R36). -/
opaque Config.freeS : Nat → Word64

end Sys2Proof
end

