-- ==== Sys2Proof/Syntax.lean ====
section
/-! DEFINITION. The syntax of CORE: the command selector, the seven operations of spec/opcode_table.json, the kinds of
beat and the beat word's fields. -/

namespace Sys2Proof

/-- The two commands' selector, the `OP` bit of a command and the register `MODE`: 0 is `bytes`, 1 is `letters`
(30_encoding.md R62, 10_state.md R27). -/
inductive Op
  | bytes
  | letters
deriving DecidableEq, Repr, Inhabited

/-- The whole opcode map (30_encoding.md R73): two commands with their immediate operands, and five internal operations,
which have no operand and no encoding (R70). -/
inductive Instr
  /-- FILL_BYTES size, seed (41_fill_bytes.md R100). -/
  | fillBytes (size : Size) (seed : Word64)
  /-- FILL_LETTERS size, seed (42_fill_letters.md R120). -/
  | fillLetters (size : Size) (seed : Word64)
  /-- STEP (40_lcg_step.md R80). -/
  | step
  /-- BCHUNK (41_fill_bytes.md R101). -/
  | bchunk
  /-- BTAIL (41_fill_bytes.md R102). -/
  | btail
  /-- LCHUNK (42_fill_letters.md R121). -/
  | lchunk
  /-- LTAIL (42_fill_letters.md R123). -/
  | ltail
deriving DecidableEq, Repr

/-- The kinds of beat (43_command_sequencer.md R142). -/
inductive BeatKind
  | bchunk
  | btail
  | lchunk
  | ltail
deriving DecidableEq, Repr

/-- The operation that performs a kind of beat. -/
def BeatKind.instr : BeatKind → Instr
  | .bchunk => .bchunk
  | .btail => .btail
  | .lchunk => .lchunk
  | .ltail => .ltail

/-- The payload fields of one transfer on OUT (30_encoding.md R64). -/
structure Beat (w : Nat := Config.sizeW) where
  off  : Size w
  n    : BitVec 4
  data : BitVec 96
deriving DecidableEq, Repr

/-- A command as the requester forms it: the three payload fields of CMD (30_encoding.md R60). -/
structure Command (w : Nat := Config.sizeW) where
  op   : Op
  size : Size w
  seed : Word64
deriving DecidableEq, Repr

/-- The instruction a command spells (30_encoding.md R62). -/
def Command.instr (c : Command) : Instr :=
  match c.op with
  | .bytes => .fillBytes c.size c.seed
  | .letters => .fillLetters c.size c.seed

/-- Why a number is no command word. -/
inductive DecodeError
  /-- A bit above the command word's top bit `OP` is set: the number is wider than a word of format `CMD`
  (30_encoding.md R61, R69). Raised by `decodeNumber`; safe. -/
  | widerThanCommandWord
deriving DecidableEq, Repr

end Sys2Proof
end

