-- ==== Sys2Proof/WellFormed.lean ====
section
/-! DEFINITION. Which instructions can be written as a word: the two commands, with any operands; the internal operations
cannot, because nothing outside CORE selects them. -/

namespace Sys2Proof

/-- An instruction with an encoding. Every operand of a command is legal (30_encoding.md R63, R68); an internal operation
has no encoding (R70). -/
def Instr.wellFormed : Instr → Bool
  | .fillBytes _ _ => true
  | .fillLetters _ _ => true
  | .step => false
  | .bchunk => false
  | .btail => false
  | .lchunk => false
  | .ltail => false

end Sys2Proof
end

