-- ==== Sys2Proof/Decode.lean ====
section
/-! DEFINITION. The word layouts (30_encoding.md): the command word decoded and encoded, the beat word and the response
word packed and read. Layouts are written for every `SIZE_W` where the rule gives them so. -/

namespace Sys2Proof

/-- `OP = 0` is FILL_BYTES, `OP = 1` is FILL_LETTERS (30_encoding.md R62). -/
def Op.ofBit (b : BitVec 1) : Op :=
  if b = 0 then .bytes else .letters

/-- The `OP` bit of a selector (30_encoding.md R62). -/
def Op.toBit : Op → BitVec 1
  | .bytes => 0
  | .letters => 1

/-! ## The command word, format `CMD`, at any `SIZE_W` = `w` (R61) -/

/-- `SEED` at `[63:0]`. -/
def cmdSeed (w : Nat) (x : BitVec (1 + w + 64)) : Word64 :=
  x.extractLsb' 0 64

/-- `SIZE` at `[63+w:64]`. -/
def cmdSize (w : Nat) (x : BitVec (1 + w + 64)) : BitVec w :=
  x.extractLsb' 64 w

/-- `OP` at bit `64+w`. -/
def cmdOp (w : Nat) (x : BitVec (1 + w + 64)) : Op :=
  Op.ofBit (x.extractLsb' (64 + w) 1)

/-- The command word of the three fields. -/
def packCmd (w : Nat) (op : Op) (size : BitVec w) (seed : Word64) : BitVec (1 + w + 64) :=
  op.toBit ++ size ++ seed

/-- The fields of a command word as a command. -/
def commandOf {w : Nat} (x : CmdWord w) : Command w :=
  { op := cmdOp w x, size := cmdSize w x, seed := cmdSeed w x }

/-- The decoder at the default width: total, every command word spells exactly one command (30_encoding.md R68). -/
def decodeCmd (x : CmdWord) : Instr :=
  (commandOf x).instr

/-- The decoder on a bare number: a number of more than `65 + SIZE_W` bits is no command word and is rejected by name. -/
def decodeNumber (n : Nat) : Except DecodeError Instr :=
  if n < 2 ^ (1 + Config.sizeW + 64) then .ok (decodeCmd (BitVec.ofNat (1 + Config.sizeW + 64) n))
  else .error .widerThanCommandWord

/-- The host's entry to the decoder. The command word is one word (30_encoding.md R69), so the table's numbering of its
bits is the word's own, and how many of them a row gives does not matter: the rest are 0. -/
def decodeTableWord (_nbits w : Nat) : Option Instr :=
  match decodeNumber w with
  | .ok i => some i
  | .error _ => none

/-- The encoder: the word of a well-formed instruction; an internal operation has none (30_encoding.md R61, R62, R70). -/
def encode : Instr → Option CmdWord
  | .fillBytes size seed => some (packCmd Config.sizeW .bytes size seed)
  | .fillLetters size seed => some (packCmd Config.sizeW .letters size seed)
  | .step => none
  | .bchunk => none
  | .btail => none
  | .lchunk => none
  | .ltail => none

/-- The word a requester puts on CMD for a command. -/
def Command.word {w : Nat} (c : Command w) : CmdWord w :=
  packCmd w c.op c.size c.seed

/-! ## The beat word, format `BEAT`, at any `SIZE_W` = `w` (R65) -/

/-- `DATA` at `[95:0]`. -/
def beatData (w : Nat) (x : BitVec (w + 4 + 96)) : BitVec 96 :=
  x.extractLsb' 0 96

/-- `N` at `[99:96]`. -/
def beatN (w : Nat) (x : BitVec (w + 4 + 96)) : BitVec 4 :=
  x.extractLsb' 96 4

/-- `OFF` at `[99+w:100]`. -/
def beatOff (w : Nat) (x : BitVec (w + 4 + 96)) : BitVec w :=
  x.extractLsb' 100 w

/-- The beat word of the three fields. -/
def packBeat (w : Nat) (off : BitVec w) (n : BitVec 4) (data : BitVec 96) : BitVec (w + 4 + 96) :=
  off ++ n ++ data

/-- The beat word of a beat. -/
def Beat.word {w : Nat} (b : Beat w) : BitVec (w + 4 + 96) :=
  packBeat w b.off b.n b.data

/-- The beat of a beat word. -/
def Beat.ofWord {w : Nat} (x : BitVec (w + 4 + 96)) : Beat w :=
  { off := beatOff w x, n := beatN w x, data := beatData w x }

/-! ## The response word, format `RSP` (R67) -/

/-- `NEW_SEED` is the whole word. -/
def rspWord (newSeed : Word64) : BitVec 64 :=
  newSeed

end Sys2Proof
end

