-- ==== Sys2Proof/Machine/Params.lean ====
section
/-! DEFINITION. The numeric parameters the document fixes (00_scope.md R5) and the byte order (R6), as named constants.
They stand under Machine/ so that a later audit of a literal (93_implementation_defined.md U6) changes one line. -/

namespace Sys2Proof

/-- `A`, the LCG multiplier (00_scope.md R5). Its literal is unaudited (log 14). -/
def Config.A : Nat := 1664525

/-- `C`, the LCG increment (00_scope.md R5). Its literal is unaudited (log 14). -/
def Config.C : Nat := 1013904223

/-- `BCH`, bytes per byte chunk (00_scope.md R5). -/
abbrev Config.BCH : Nat := 8

/-- `LCH`, letters per letter chunk (00_scope.md R5). -/
abbrev Config.LCH : Nat := 12

/-- `FW`, width of one letter field (00_scope.md R5). -/
abbrev Config.FW : Nat := 5

/-- `ALPHA`, the alphabet size (00_scope.md R5). -/
abbrev Config.ALPHA : Nat := 26

/-- `BASE`, the ASCII code of 'a' (00_scope.md R5). PRESUMED: the number 0x61 is general knowledge (U7, log 14). -/
abbrev Config.BASE : Nat := 0x61

/-- `BYTE_ORDER`, decided little (00_scope.md R6, 20_memory.md R44; log 4). -/
def Config.byteOrder : ByteOrder := .little

/-- The chunk size `c` of a command: 8 bytes or 12 letters (10_state.md R29). -/
def chunkLen : Op → Nat
  | .bytes => Config.BCH
  | .letters => Config.LCH

/-- The number `n` of cells of a beat (43_command_sequencer.md R142). -/
def BeatKind.cells : BeatKind → Nat
  | .bchunk => Config.BCH
  | .btail => 1
  | .lchunk => Config.LCH
  | .ltail => 1

end Sys2Proof
end

