-- ==== Sys2Proof/Machine/Operands.lean ====
section
/-! DEFINITION. The two encoders: what a stepped value turns into on the OUT channel. Fields are extracted by fixed
position (40_lcg_step.md R89 (b)), reduced modulo 26 as unsigned integers (R90, R91), and laid into `DATA`. -/

namespace Sys2Proof.Machine

/-- Byte `j` of a value, `v[8j+7:8j]` (20_memory.md R44). -/
def byteOf (v : Word64) (j : Nat) : Byte :=
  v.extractLsb' (8 * j) 8

/-- The 5-bit field of lane `i`, `v[5i+4:5i]` (42_fill_letters.md R121). -/
def fieldOf (v : Word64) (i : Nat) : BitVec 5 :=
  v.extractLsb' (Config.FW * i) 5

/-- The cell that holds letter number `r`: `BASE + r` (42_fill_letters.md R122). -/
def letterCode (r : Nat) : Byte :=
  BitVec.ofNat 8 (Config.BASE + r)

/-- The letter of a 5-bit field, reduced modulo 26 (40_lcg_step.md R90). -/
def letterOfField (f : BitVec 5) : Byte :=
  letterCode (f.toNat % Config.ALPHA)

/-- The letter of a whole value, the unsigned 64-bit integer reduced modulo 26 (40_lcg_step.md R91). -/
def letterOfValue (v : Word64) : Byte :=
  letterCode (v.toNat % Config.ALPHA)

/-- `bchunk(v)`: its byte `j` is the byte for `DST[OFF + j]` (41_fill_bytes.md R101): `v` itself at little, the bytes
of `v` reversed at big. -/
def bchunk : ByteOrder → Word64 → Word64
  | .little, v => v
  | .big, v => byteOf v 0 ++ byteOf v 1 ++ byteOf v 2 ++ byteOf v 3 ++ byteOf v 4 ++ byteOf v 5 ++ byteOf v 6 ++ byteOf v 7

/-- `btail(v) = v[7:0]` (41_fill_bytes.md R102). -/
def btail (v : Word64) : Byte :=
  v.extractLsb' 0 8

/-- Lane `i` of an LCHUNK beat, `L[i]` (42_fill_letters.md R121). -/
def lane (v : Word64) (i : Nat) : Byte :=
  letterOfField (fieldOf v i)

/-- The twelve lanes as `{L[11], ..., L[0]}`, `L[i]` at `DATA[8i+7:8i]` (42_fill_letters.md R121). -/
def lchunk (v : Word64) : BitVec 96 :=
  lane v 11 ++ lane v 10 ++ lane v 9 ++ lane v 8 ++ lane v 7 ++ lane v 6 ++
    lane v 5 ++ lane v 4 ++ lane v 3 ++ lane v 2 ++ lane v 1 ++ lane v 0

/-- The one letter of an LTAIL beat (42_fill_letters.md R123). -/
def ltail (v : Word64) : Byte :=
  letterOfValue v

/-- The `DATA` field of a beat of kind `k` for the stepped value `v`; bits above the beat's cells are zero
(30_encoding.md R65). -/
def dataOf (order : ByteOrder) (k : BeatKind) (v : Word64) : BitVec 96 :=
  match k with
  | .bchunk => (bchunk order v).setWidth 96
  | .btail => (btail v).setWidth 96
  | .lchunk => lchunk v
  | .ltail => (ltail v).setWidth 96

/-- Cell `j` of a beat, `DATA[8j+7:8j]` (30_encoding.md R65). -/
def dataCell (data : BitVec 96) (j : Nat) : Byte :=
  data.extractLsb' (8 * j) 8

/-- The cells of a beat's data, cell 0 first (30_encoding.md R65). -/
def dataCells (n : Nat) (data : BitVec 96) : List Byte :=
  (List.range n).map (dataCell data)

end Sys2Proof.Machine
end

