-- ==== Sys2Proof/Machine/State.lean ====
section
/-! DEFINITION. The state of CORE with the environment around it, the reasons a step can stop, and the state after
reset. INVENTORY.md lists every field with its rule and its reset value. -/

namespace Sys2Proof.Machine

/-- The destination's cells that are known, as (offset, byte) pairs with strictly rising offsets (20_memory.md R40).
An offset that is not listed holds a value the model does not know (log 6). -/
abbrev Memory := List Host.Cell

/-- The canonical form of a destination: strictly rising offsets. -/
abbrev Memory.wf (m : Memory) : Prop :=
  m.Pairwise fun a b => a.1 < b.1

/-- The register `PHASE` (10_state.md R28). -/
inductive Phase
  /-- No command in progress; CORE can accept one. -/
  | idle
  /-- A command has been accepted and beats may remain. -/
  | run
  /-- Every beat of the command has been transferred and the response has not. -/
  | resp
deriving DecidableEq, Repr

/-- CORE raises no exception: "The list of exception causes, with codes, is the empty list" (60_exceptions.md R170).
So there is no constructor, nobody raises one, and no run can end in a fault (log 20). -/
inductive Fault
deriving DecidableEq, Repr

/-- The reasons a step has no meaning. -/
inductive Refusal
  /-- An operation whose meaning is not written yet, by its mnemonic. Raised by an arm of `exec` only; safe. No arm
  raises it: every operation has its meaning. -/
  | notModelled (mnemonic : String)
deriving DecidableEq, Repr

/-- CORE's registers, the destination, and the environment, for a CORE built with `SIZE_W` = `w`. -/
structure State (w : Nat := Config.sizeW) where
  /-- `PHASE` (10_state.md R28). -/
  phase     : Phase
  /-- `MODE` (10_state.md R27). -/
  mode      : Op
  /-- `S`, the generator state (10_state.md R20). -/
  S         : Word64
  /-- `REM`, elements not yet written (10_state.md R25). -/
  rem       : Size w
  /-- `OFF`, destination offset of the next element (10_state.md R26). -/
  off       : Size w
  /-- `DST`, the sink's destination (20_memory.md R40). -/
  dst       : Memory
  /-- The model's own: every `NEW_SEED` the requester has taken, oldest first (log 15). -/
  responses : List Word64
  /-- The model's own: what the environment drives at the coming steps, one sample a step, oldest first (log 5). -/
  inputs    : List (Inputs w)
  /-- The model's own: how many samples have been taken, the argument of the free values (log 2, log 5). -/
  draws     : Nat
deriving DecidableEq, Repr

/-- The machine of any `SIZE_W` right after reset (10_state.md R36). `S` is unspecified by the spec: DESIGN CHOICE zero (log 1). No
destination cell is known (log 6), no response has been taken, and the environment is free (log 5). -/
def State.resetAt (w : Nat) : State w :=
  { phase := .idle, mode := .bytes, S := 0, rem := 0, off := 0, dst := [], responses := [], inputs := [], draws := 0 }

/-- The machine of the default `SIZE_W` right after reset. -/
def State.reset : State :=
  State.resetAt Config.sizeW

end Sys2Proof.Machine
end

