-- ==== Sys2Proof/Machine/Ops.lean ====
section
/-! DEFINITION. The named operations over the generator state, the destination and the registers. CORE takes no
exception (60_exceptions.md R170, R174), so the one transfer of control from outside is the reset input. -/

namespace Sys2Proof.Machine

variable {w : Nat}

/-! ## The LCG multiplier-adder -/

/-- `lcg_next(s) = (s * A + C) mod 2^64`, over the integers and then reduced (40_lcg_step.md R80). The sum is written
with its constants in front, so that Lean does not unfold it along a numeral when `s` is a variable. -/
def lcgNext (s : Word64) : Word64 :=
  BitVec.ofNat 64 (Config.C + Config.A * s.toNat)

/-- STEP: `S <- lcg_next(S)` (40_lcg_step.md R80). -/
def State.stepLcg (s : State w) : State w :=
  { s with S := lcgNext s.S }

/-! ## The destination -/

/-- What the cell at an offset holds, `none` where the model does not know it. CORE never calls it (20_memory.md R47);
statements and observers do. -/
def Memory.read : Memory → Nat → Option Byte
  | [], _ => none
  | c :: m, a => if c.1 = a then some c.2 else Memory.read m a

/-- Write one cell, keeping the offsets strictly rising. -/
def Memory.writeCell : Memory → Nat → Byte → Memory
  | [], a, b => [(a, b)]
  | c :: m, a, b =>
    if a < c.1 then (a, b) :: c :: m
    else if a = c.1 then (a, b) :: m
    else c :: Memory.writeCell m a b

/-- Write cells at consecutive offsets from `a` up. -/
def Memory.writeCells : Memory → Nat → List Byte → Memory
  | m, _, [] => m
  | m, a, b :: bs => Memory.writeCells (Memory.writeCell m a b) (a + 1) bs

/-- `MemWrite(off, n, v)`: byte `j` of the value into `DST[off + j]` (00_scope.md R9). -/
def Memory.memWrite (m : Memory) (off n : Nat) (data : BitVec 96) : Memory :=
  m.writeCells off (dataCells n data)

/-- The destination that holds the given cells; of two cells at one offset the later stands. -/
def Memory.ofCells (cells : List Host.Cell) : Memory :=
  cells.foldl (fun m c => m.writeCell c.1 c.2) []

/-- The `n` cells from offset `a` up as one little-endian number, if all are known (20_memory.md R46). -/
def Memory.readLittle (m : Memory) : Nat → Nat → Option Nat
  | _, 0 => some 0
  | a, n + 1 =>
    match m.read a, Memory.readLittle m (a + 1) n with
    | some b, some r => some (b.toNat + 256 * r)
    | _, _ => none

/-! ## Beats -/

/-- Beat selection for a number of remaining elements (43_command_sequencer.md R142). -/
def beatFor (mode : Op) (rem : Nat) : Option BeatKind :=
  match mode with
  | .bytes => if Config.BCH ≤ rem then some .bchunk else if 1 ≤ rem then some .btail else none
  | .letters => if Config.LCH ≤ rem then some .lchunk else if 1 ≤ rem then some .ltail else none

/-- Beat selection from `MODE` and `REM` alone (43_command_sequencer.md R142). -/
def selectBeat (mode : Op) (rem : Size w) : Option BeatKind :=
  beatFor mode rem.toNat

/-- The beat CORE presents on OUT, if any: OUT `valid` exactly when `PHASE = RUN` and `REM > 0` (30_encoding.md R64). -/
def State.selected (s : State w) : Option BeatKind :=
  match s.phase with
  | .idle => none
  | .run => selectBeat s.mode s.rem
  | .resp => none

/-- The OUT fields of a beat of kind `k`, computed from `v = lcg_next(S)` (43_command_sequencer.md R143). -/
def State.beatOf (k : BeatKind) (s : State w) : Beat w :=
  { off := s.off, n := BitVec.ofNat 4 k.cells, data := dataOf Config.byteOrder k (lcgNext s.S) }

/-- A beat taken by the sink: its cells are written, STEP advances `S`, `OFF` and `REM` move by the cell count, all at
once (43_command_sequencer.md R143). Offsets are added as integers (log 12). -/
def State.performBeat (k : BeatKind) (s : State w) : State w :=
  { s.stepLcg with
    dst := s.dst.memWrite (s.beatOf k).off.toNat (s.beatOf k).n.toNat (s.beatOf k).data
    off := s.off + BitVec.ofNat w k.cells
    rem := s.rem - BitVec.ofNat w k.cells }

/-- A beat operation fires only when the sequencer has selected it; a rule that is not enabled changes nothing
(43_command_sequencer.md section 2: "each fires only when the environment condition it names holds. Between firings
nothing changes."; log 8). -/
def State.runBeat (k : BeatKind) (s : State w) : State w :=
  if s.selected = some k then s.performBeat k else s

/-! ## Moves of the sequencer -/

/-- Accept a command (43_command_sequencer.md R141). -/
def State.accept (op : Op) (size : Size w) (seed : Word64) (s : State w) : State w :=
  { s with mode := op, S := seed, rem := size, off := 0, phase := .run }

/-- A command is accepted in IDLE; offered while CORE is busy it is "not taken, not dropped and not an error": nothing
changes (43_command_sequencer.md R147). -/
def State.takeCommand (op : Op) (size : Size w) (seed : Word64) (s : State w) : State w :=
  if s.phase = .idle then s.accept op size seed else s

/-- End of beats (43_command_sequencer.md R145). -/
def State.endBeats (s : State w) : State w :=
  { s with phase := .resp }

/-- Respond: the requester takes `NEW_SEED = S` (43_command_sequencer.md R146). -/
def State.respond (s : State w) : State w :=
  { s with phase := .idle, responses := s.responses ++ [rspWord s.S] }

/-- The reset input (70_reset_and_hazards.md R190, R191): the registers as in 10_state.md R36, `S` the free value given,
the destination untouched. -/
def State.applyReset (freeS : Word64) (s : State w) : State w :=
  { s with phase := .idle, mode := .bytes, S := freeS, rem := 0, off := 0 }

/-- The platform binds a destination to the sink; it may do so only between commands (70_reset_and_hazards.md R192,
20_memory.md R53; log 7). -/
def State.bindDst (b : Option (List Host.Cell)) (s : State w) : State w :=
  match s.phase, b with
  | .idle, some cells => { s with dst := Memory.ofCells cells }
  | _, _ => s

/-! ## Sampling the environment -/

/-- What the environment drives at this step: the listed sample, or a free one (log 5). -/
def State.sample (s : State w) : Inputs w :=
  match s.inputs with
  | [] => Config.freeInputs w s.draws
  | p :: _ => p

/-- The sample is used up. -/
def State.advance (s : State w) : State w :=
  { s with inputs := s.inputs.tail, draws := s.draws + 1 }

end Sys2Proof.Machine
end

