-- ==== Sys2Proof/Machine/Bytes.lean ====
section
/-! DEFINITION. The byte-stream encoder's operations: FILL_BYTES, BCHUNK, BTAIL. -/

namespace Sys2Proof.Machine

variable {w : Nat}

/-- FILL_BYTES (41_fill_bytes.md R100) as the machine fires it: acceptance with `MODE` 0 (43_command_sequencer.md R141).
The beats follow as operations of their own; `fill` (Machine/Fill.lean) is the command's whole effect. -/
def execFillBytes (size : Size w) (seed : Word64) (s : State w) : Host.Outcome (State w) Fault Refusal :=
  .next (s.takeCommand .bytes size seed)

/-- BCHUNK (41_fill_bytes.md R101). -/
def execBchunk (s : State w) : Host.Outcome (State w) Fault Refusal :=
  .next (s.runBeat .bchunk)

/-- BTAIL (41_fill_bytes.md R102). -/
def execBtail (s : State w) : Host.Outcome (State w) Fault Refusal :=
  .next (s.runBeat .btail)

end Sys2Proof.Machine
end

