-- ==== Sys2Proof/Machine/Lcg.lean ====
section
/-! DEFINITION. The meaning of STEP. -/

namespace Sys2Proof.Machine

variable {w : Nat}

/-- STEP (40_lcg_step.md R80): total, no error, no other effect. The sequencer runs it inside every beat and nowhere else
(`State.performBeat` holds it); on its own it is this one register write (log 9). -/
def execStep (s : State w) : Host.Outcome (State w) Fault Refusal :=
  .next s.stepLcg

end Sys2Proof.Machine
end

