-- ==== Sys2Proof/Machine/Letters.lean ====
section
/-! DEFINITION. The character-stream encoder's operations: FILL_LETTERS, LCHUNK, LTAIL. -/

namespace Sys2Proof.Machine

variable {w : Nat}

/-- FILL_LETTERS (42_fill_letters.md R120) as the machine fires it: acceptance with `MODE` 1 (43_command_sequencer.md
R141). The beats follow as operations of their own; `fill` (Machine/Fill.lean) is the command's whole effect. -/
def execFillLetters (size : Size w) (seed : Word64) (s : State w) : Host.Outcome (State w) Fault Refusal :=
  .next (s.takeCommand .letters size seed)

/-- LCHUNK (42_fill_letters.md R121). -/
def execLchunk (s : State w) : Host.Outcome (State w) Fault Refusal :=
  .next (s.runBeat .lchunk)

/-- LTAIL (42_fill_letters.md R123). -/
def execLtail (s : State w) : Host.Outcome (State w) Fault Refusal :=
  .next (s.runBeat .ltail)

end Sys2Proof.Machine
end

