-- ==== Sys2Proof/Machine/Dispatch.lean ====
section
/-! DEFINITION. One arm per operation of the opcode table. -/

namespace Sys2Proof.Machine

/-- The effect of one operation (10_state.md R35 lists the state each touches). -/
def exec (i : Instr) (s : State) : Host.Outcome State Fault Refusal :=
  match i with
  | .fillBytes size seed => Sys2Proof.Machine.execFillBytes size seed s
  | .fillLetters size seed => Sys2Proof.Machine.execFillLetters size seed s
  | .step => Sys2Proof.Machine.execStep s
  | .bchunk => Sys2Proof.Machine.execBchunk s
  | .btail => Sys2Proof.Machine.execBtail s
  | .lchunk => Sys2Proof.Machine.execLchunk s
  | .ltail => Sys2Proof.Machine.execLtail s

end Sys2Proof.Machine
end

