-- ==== Sys2Proof/Machine/Flags.lean ====
section
/-! DEFINITION. CORE has no flag and no condition code (10_state.md R32). What a requester or a sink can observe are the
signals CORE drives on its channels, each a function of the registers. -/

namespace Sys2Proof.Machine

variable {w : Nat}

/-- `BUSY = (PHASE != IDLE)` (10_state.md R28). -/
def State.busy (s : State w) : Bool :=
  s.phase != .idle

/-- CMD `ready`, exactly when `PHASE = IDLE` (30_encoding.md R60). -/
def State.cmdReady (s : State w) : Bool :=
  s.phase == .idle

/-- The beat on OUT when OUT `valid`, `none` when not (30_encoding.md R64). -/
def State.out (s : State w) : Option (Beat w) :=
  s.selected.map fun k => s.beatOf k

/-- OUT `valid` (30_encoding.md R64). -/
def State.outValid (s : State w) : Bool :=
  s.out.isSome

/-- `NEW_SEED` on RSP when RSP `valid`, exactly when `PHASE = RESP` (30_encoding.md R67). -/
def State.rsp (s : State w) : Option Word64 :=
  match s.phase with
  | .idle => none
  | .run => none
  | .resp => some (rspWord s.S)

/-- RSP `valid` (30_encoding.md R67). -/
def State.rspValid (s : State w) : Bool :=
  s.rsp.isSome

end Sys2Proof.Machine
end

