-- ==== Sys2Proof/Machine/Sequencer.lean ====
section
/-! DEFINITION. The command sequencer (43_command_sequencer.md section 2) for a CORE of any `SIZE_W`: which operation fires
for the registers and the environment's sample, the moves that are no operation of the table, and the step they make.
Machine/Step.lean is the same step at the default width, through `exec`. -/

namespace Sys2Proof

/-- What a rule that fires runs: the command taken from CMD (43_command_sequencer.md R141), or the beat taken by the sink
(R143). -/
inductive Firing (w : Nat := Config.sizeW)
  | command (c : Command w)
  | beat (k : BeatKind)
deriving DecidableEq, Repr

/-- The operation of the opcode table that fires, at the default width. -/
def Firing.instr : Firing → Instr
  | .command c => c.instr
  | .beat k => k.instr

end Sys2Proof

namespace Sys2Proof.Machine

variable {w : Nat}

/-- What fires: in IDLE the command offered on CMD (R141), in RUN the selected beat when the sink takes it (R143), in RESP
none. -/
def fetch (s : State w) (p : Inputs w) : Option (Firing w) :=
  match s.phase with
  | .idle => p.cmd.map fun x => .command (commandOf x)
  | .run => if p.outReady then (selectBeat s.mode s.rem).map .beat else none
  | .resp => none

/-- The effect of what fires, by the operations that the meanings of exec are made of. -/
def State.fire (f : Firing w) (s : State w) : State w :=
  match f with
  | .command c => s.takeCommand c.op c.size c.seed
  | .beat k => s.runBeat k

/-- What happens when no operation fires: the end of beats, which needs nothing from the environment (R145), the response
when the requester takes it (R146), or nothing (R144). -/
def betweenOps (s : State w) (p : Inputs w) : State w :=
  match s.phase with
  | .idle => s
  | .run => if s.rem = 0 then s.endBeats else s
  | .resp => if p.rspReady then s.respond else s

/-- The state an operation fires in when the environment drives `p`: the sample used up and, in IDLE, the platform's
binding made. -/
def State.taking (p : Inputs w) (s : State w) : State w :=
  s.advance.bindDst p.bind

/-- The state an operation fires in. -/
def State.sampled (s : State w) : State w :=
  s.taking s.sample

/-- The reset input asserted at this step; it wins over every step rule (70_reset_and_hazards.md R190). -/
def resetStep (s : State w) : State w :=
  s.advance.applyReset (Config.freeS s.draws)

/-- One step of a CORE of any `SIZE_W` while the environment drives `p`: reset wins; else what fires runs; else the
sequencer moves on its own or waits. -/
def stepUnder (p : Inputs w) (s : State w) : State w :=
  if p.reset then resetStep s
  else
    match fetch (s.taking p) p with
    | some f => (s.taking p).fire f
    | none => betweenOps (s.taking p) p

/-- The state after `n` steps from `s` while the environment drives `env 0`, `env 1`, ...: any behaviour of the requester,
the sink and the platform without an end (43_command_sequencer.md R140). -/
def course (env : Nat → Inputs w) (s : State w) : Nat → State w
  | 0 => s
  | n + 1 => stepUnder (env n) (course env s n)

/-- The requester offers the command word `x` at the next step, in IDLE, with nobody unwilling (log 23). -/
def State.withOffer (s : State w) (x : CmdWord w) : State w :=
  { s with phase := .idle, inputs := Inputs.offer x :: s.inputs }

end Sys2Proof.Machine
end

