-- ==== Sys2Proof/Machine/Step.lean ====
section
/-! DEFINITION. One step of the machine at the default `SIZE_W`: the reset input, or one firing of a rule through `exec`, or
one wait. It is `stepUnder` (Machine/Sequencer.lean) of the state's own sample. -/

namespace Sys2Proof.Machine

/-- One step: sample the environment; reset wins; else the operation that fires is executed; else the sequencer moves on
its own or waits. -/
def step (s : State) : Host.Outcome State Fault Refusal :=
  if s.sample.reset then .next (resetStep s)
  else
    match fetch s.sampled s.sample with
    | some f => exec f.instr s.sampled
    | none => .next (betweenOps s.sampled s.sample)

/-- CORE fetches nothing: a command comes on the CMD channel (20_memory.md R41), so the word is placed there, offered at
the very next step to a CORE that is IDLE (log 23). -/
def State.withFetchWord (s : State) (_nbits w : Nat) : State :=
  s.withOffer (BitVec.ofNat (1 + Config.sizeW + 64) w)

end Sys2Proof.Machine
end

