-- ==== Sys2Proof/Machine/Fill.lean ====
section
/-! DEFINITION. The big-step layer (00_scope.md R7): each command as a total function from size and seed to the cells
written and the new seed, from the pseudocode of 41_fill_bytes.md R100 and 42_fill_letters.md R120; with it the beat plan
of a command and the powers of the LCG step. -/

namespace Sys2Proof.Machine

/-- The cells one step gives on the main path, offset order (R100: `DST[off + j] <- s[8j+7 : 8j]`; 20_memory.md R44 for
the big order; R120: `DST[off + i] <- 0x61 + (s[5i+4 : 5i] mod 26)`). -/
def mainCells (order : ByteOrder) (op : Op) (s : Word64) : List Byte :=
  match op, order with
  | .bytes, .little => (List.range Config.BCH).map fun j => s.extractLsb' (8 * j) 8
  | .bytes, .big => (List.range Config.BCH).map fun j => s.extractLsb' (56 - 8 * j) 8
  | .letters, _ => (List.range Config.LCH).map fun i =>
      BitVec.ofNat 8 (Config.BASE + (s.extractLsb' (5 * i) 5).toNat % Config.ALPHA)

/-- The cell one step gives on the tail path (R100: `DST[off] <- s[7:0]`; R120: `DST[off] <- 0x61 + (s mod 26)`). -/
def tailCell (op : Op) (s : Word64) : Byte :=
  match op with
  | .bytes => BitVec.ofNat 8 s.toNat
  | .letters => BitVec.ofNat 8 (Config.BASE + s.toNat % Config.ALPHA)

/-- The two loops of R100 and R120 on the count `size - off`: while a whole chunk is left, one step per chunk; then, while
anything is left, one step per element. `fuel` bounds the rounds. -/
def fillLoop (order : ByteOrder) (op : Op) : (fuel : Nat) → (left : Nat) → Word64 → List Byte × Word64
  | 0, _, s => ([], s)
  | fuel + 1, left, s =>
    if chunkLen op ≤ left then
      let r := fillLoop order op fuel (left - chunkLen op) (lcgNext s)
      (mainCells order op (lcgNext s) ++ r.1, r.2)
    else if 1 ≤ left then
      let r := fillLoop order op fuel (left - 1) (lcgNext s)
      (tailCell op (lcgNext s) :: r.1, r.2)
    else ([], s)

/-- `fill(op, size, seed)`: the cells of the command, offset 0 first, and its new seed (43_command_sequencer.md section 3).
The loops make at most `size` rounds. -/
def fill (order : ByteOrder) (op : Op) (size : Nat) (seed : Word64) : List Byte × Word64 :=
  fillLoop order op size size seed

/-- `lcg_next^k(s)` (40_lcg_step.md R86). -/
def lcgIter : Nat → Word64 → Word64
  | 0, s => s
  | k + 1, s => lcgNext (lcgIter k s)

/-- `k` commands of one chunk each, every one seeded with the response of the one before: the cells in order and the last
response (43_command_sequencer.md R154). -/
def chainChunks (order : ByteOrder) (op : Op) : Nat → Word64 → List Byte × Word64
  | 0, s => ([], s)
  | k + 1, s =>
    let first := fill order op (chunkLen op) s
    let more := chainChunks order op k first.2
    (first.1 ++ more.1, more.2)

/-- The inverse of `A` modulo `2^64` (40_lcg_step.md R84). -/
def lcgAInv : Nat := 0xEEA56631FEE058C5

/-- `lcg_prev(t) = ((t - C) * A_INV) mod 2^64`. "CORE has no operation that steps backwards; the law is for proofs"
(40_lcg_step.md R84). -/
def lcgPrev (t : Word64) : Word64 :=
  (t - BitVec.ofNat 64 Config.C) * BitVec.ofNat 64 lcgAInv

/-- The beats of a command in order, by the selection of 43_command_sequencer.md R142. -/
def beatPlanLoop (op : Op) : (fuel : Nat) → (left : Nat) → List BeatKind
  | 0, _ => []
  | fuel + 1, left =>
    match beatFor op left with
    | none => []
    | some k => k :: beatPlanLoop op fuel (left - k.cells)

/-- The beats of a command of `size` elements. -/
def beatPlan (op : Op) (size : Nat) : List BeatKind :=
  beatPlanLoop op size size

/-- `K = (size div c) + (size mod c)` (43_command_sequencer.md R149). -/
def stepCount (op : Op) (size : Nat) : Nat :=
  size / chunkLen op + size % chunkLen op

/-- The offset after `k` beats of a command of `size` elements (43_command_sequencer.md R142, R143). -/
def offsetAfter (op : Op) (size k : Nat) : Nat :=
  if k ≤ size / chunkLen op then chunkLen op * k
  else chunkLen op * (size / chunkLen op) + (k - size / chunkLen op)

/-- The beat of the main path of a command. -/
def chunkBeat : Op → BeatKind
  | .bytes => .bchunk
  | .letters => .lchunk

/-- The beat of the tail path of a command. -/
def tailBeat : Op → BeatKind
  | .bytes => .btail
  | .letters => .ltail

/-- The kind of beat number `k`, from 0, of a command of `size` elements: a chunk beat while `k` is below
`size div c`, then a tail beat (41_fill_bytes.md R105, 42_fill_letters.md R128). -/
def beatAt (op : Op) (size k : Nat) : BeatKind :=
  if k < size / chunkLen op then chunkBeat op else tailBeat op

end Sys2Proof.Machine
end

