-- ==== Sys2Proof/Machine/Program.lean ====
section
/-! DEFINITION. Programs of the requester (30_encoding.md R71, R72): lists of command lines whose seeds may be earlier
responses by name, what they return, and the input schedule that issues them. CORE has none of these names
(10_state.md R31). -/

namespace Sys2Proof

/-- What a command writes and returns (43_command_sequencer.md section 3). -/
def Command.result {w : Nat} (c : Command w) : List Byte × Word64 :=
  Machine.fill Config.byteOrder c.op c.size.toNat c.seed

/-- `K`, the number of beats of a command (43_command_sequencer.md R149). -/
def Command.steps {w : Nat} (c : Command w) : Nat :=
  Machine.stepCount c.op c.size.toNat

/-- The samples of a willing environment that issues one command and waits for its response: the offer, then one sample
for each of the `K` beats, the end of beats and the response (43_command_sequencer.md R149, R158). -/
def Command.schedule {w : Nat} (c : Command w) : List (Inputs w) :=
  Inputs.offer c.word :: List.replicate (c.steps + 2) Inputs.willing

end Sys2Proof

namespace Sys2Proof.Machine

/-- A requester-side name. -/
abbrev Name := List Char

/-- The seed of a line: a literal, or the response of an earlier line (30_encoding.md R71). -/
inductive SeedOperand
  | literal (seed : Word64)
  | name (n : Name)
deriving DecidableEq, Repr

/-- One line: `FILL_BYTES size, seed -> name` or `FILL_LETTERS size, seed -> name` (30_encoding.md R71). -/
structure Line (w : Nat := Config.sizeW) where
  op     : Op
  size   : Size w
  seed   : SeedOperand
  result : Name
deriving DecidableEq, Repr

/-- A finite list of lines, issued one after another (30_encoding.md R71). -/
abbrev Program (w : Nat := Config.sizeW) := List (Line w)

variable {w : Nat}

/-- What the names are bound to, the latest binding first (log 17). -/
abbrev Bindings := List (Name × Word64)

/-- A literal, or one of the names bound so far. -/
def SeedOperand.isBound (bound : List Name) : SeedOperand → Bool
  | .literal _ => true
  | .name n => bound.contains n

/-- Every name used as a seed is bound by an earlier line (30_encoding.md R71). -/
def Program.wellFormedFrom : List Name → Program w → Bool
  | _, [] => true
  | bound, l :: p => l.seed.isBound bound && Program.wellFormedFrom (l.result :: bound) p

/-- A program that stands alone. -/
def Program.wellFormed (p : Program w) : Bool :=
  Program.wellFormedFrom [] p

/-- The value of a seed operand. -/
def SeedOperand.value (b : Bindings) : SeedOperand → Option Word64
  | .literal s => some s
  | .name n => b.lookup n

/-- The commands a program issues: a line whose seed is a name is the same command with that value in its `SEED` field
(30_encoding.md R72). `none` when a name is not bound. -/
def Program.commandsFrom : Bindings → Program w → Option (List (Command w))
  | _, [] => some []
  | b, l :: p =>
    match l.seed.value b with
    | none => none
    | some seed =>
      let c : Command w := { op := l.op, size := l.size, seed := seed }
      match Program.commandsFrom ((l.result, c.result.2) :: b) p with
      | none => none
      | some cs => some (c :: cs)

/-- The commands of a program that stands alone. -/
def Program.commands (p : Program w) : Option (List (Command w)) :=
  Program.commandsFrom [] p

/-- Commands issued one after another, each after the response of the one before (30_encoding.md R71). -/
def scheduleAll (cs : List (Command w)) : List (Inputs w) :=
  cs.flatMap Command.schedule

end Sys2Proof.Machine
end

