-- ==== Sys2Proof/Machine/Asm.lean ====
section
/-! DEFINITION. The written form of commands and programs (30_encoding.md R71): a reader from text to `Line`. The spec
fixes no grammar below this; what the model adds (where blanks may stand, what a name looks like) is log 17. -/

namespace Sys2Proof.Machine

/-- Why a line of text is no command line. Raised by `parseLine`; safe. -/
inductive AsmError
  /-- Not of the form `MNEMONIC size, seed -> name`. -/
  | badForm
  /-- The mnemonic is neither FILL_BYTES nor FILL_LETTERS. -/
  | badMnemonic
  /-- The size is no number, or does not fit `SIZE_W` bits. -/
  | badSize
  /-- The seed is neither a name nor a number of 64 bits. -/
  | badSeed
  /-- The name to bind is no name. -/
  | badName
deriving DecidableEq, Repr

/-- A piece of a line. -/
inductive Token
  | word (w : List Char)
  | comma
  | arrow
deriving DecidableEq, Repr

/-- The word collected so far, as a token unless it is empty. -/
def wordToken (w : List Char) : List Token :=
  match w with
  | [] => []
  | c :: cs => [.word (c :: cs)]

/-- Cut a line into tokens; `#` begins a comment to the end of the line. -/
def tokens : (collected : List Char) → List Char → List Token
  | w, [] => wordToken w
  | w, '#' :: _ => wordToken w
  | w, ',' :: cs => wordToken w ++ .comma :: tokens [] cs
  | w, '-' :: '>' :: cs => wordToken w ++ .arrow :: tokens [] cs
  | w, c :: cs => if c == ' ' || c == '\t' then wordToken w ++ tokens [] cs else tokens (w ++ [c]) cs

/-- The value of a digit in a base up to 16. -/
def digit (base : Nat) (c : Char) : Option Nat :=
  let n := c.toNat
  let v := if 48 ≤ n ∧ n ≤ 57 then n - 48 else if 97 ≤ n ∧ n ≤ 102 then n - 87 else if 65 ≤ n ∧ n ≤ 70 then n - 55 else base
  if v < base then some v else none

/-- Digits read from the most significant on. -/
def digitsValue (base : Nat) : (value : Nat) → List Char → Option Nat
  | v, [] => some v
  | v, c :: cs =>
    match digit base c with
    | none => none
    | some d => digitsValue base (v * base + d) cs

/-- A decimal or `0x` hexadecimal unsigned integer. -/
def number (w : List Char) : Option Nat :=
  match w with
  | [] => none
  | ['0', 'x'] => none
  | '0' :: 'x' :: cs => digitsValue 16 0 cs
  | c :: cs => digitsValue 10 0 (c :: cs)

/-- A letter or an underscore. -/
def isNameStart (c : Char) : Bool :=
  c.isAlpha || c == '_'

/-- A name: a letter or an underscore, then letters, digits and underscores. -/
def isName (w : List Char) : Bool :=
  match w with
  | [] => false
  | c :: cs => isNameStart c && cs.all fun d => isNameStart d || d.isDigit

/-- The command of a mnemonic. -/
def mnemonicOp (w : List Char) : Option Op :=
  if w = "FILL_BYTES".toList then some .bytes
  else if w = "FILL_LETTERS".toList then some .letters
  else none

/-- A seed: a 64-bit literal, or a name. -/
def seedOperand (w : List Char) : Option SeedOperand :=
  if isName w then some (.name w)
  else
    match number w with
    | none => none
    | some n => if n < 2 ^ 64 then some (.literal (BitVec.ofNat 64 n)) else none

/-- A size of `SIZE_W` bits. -/
def sizeOperand (text : List Char) (w : Nat := Config.sizeW) : Option (Size w) :=
  match number text with
  | none => none
  | some n => if n < 2 ^ w then some (BitVec.ofNat w n) else none

/-- One command line from its tokens. -/
def lineOfTokens (ts : List Token) (w : Nat := Config.sizeW) : Except AsmError (Line w) :=
  match ts with
  | [.word m, .word size, .comma, .word seed, .arrow, .word name] =>
    match mnemonicOp m, sizeOperand size w, seedOperand seed with
    | none, _, _ => .error .badMnemonic
    | some _, none, _ => .error .badSize
    | some _, some _, none => .error .badSeed
    | some op, some sz, some sd =>
      if isName name then .ok { op := op, size := sz, seed := sd, result := name } else .error .badName
  | _ => .error .badForm

/-- One line of text: a command line, or nothing when only blanks and a comment stand on it. -/
def parseLine (text : String) (w : Nat := Config.sizeW) : Except AsmError (Option (Line w)) :=
  match tokens [] text.toList with
  | [] => .ok none
  | t :: ts =>
    match lineOfTokens (t :: ts) w with
    | .ok l => .ok (some l)
    | .error e => .error e

/-- A program from its lines of text. -/
def parseProgram (texts : List String) (w : Nat := Config.sizeW) : Except AsmError (Program w) :=
  match texts with
  | [] => .ok []
  | text :: more =>
    match parseLine text w, parseProgram more w with
    | .error e, _ => .error e
    | .ok _, .error e => .error e
    | .ok none, .ok p => .ok p
    | .ok (some l), .ok p => .ok (l :: p)

end Sys2Proof.Machine
end

