-- ==== Sys2Proof/Machine/Events.lean ====
section
/-! DEFINITION. The transfers on the three channels as events (00_scope.md R9), for rules about their order
(43_command_sequencer.md R151). -/

namespace Sys2Proof.Machine

/-- A transfer on one channel. -/
inductive Event (w : Nat := Config.sizeW)
  /-- `take CMD(op, size, seed)` (30_encoding.md R60). -/
  | takeCmd (c : Command w)
  /-- `send OUT(off, n, data)` (30_encoding.md R64). -/
  | sendOut (b : Beat w)
  /-- `send RSP(new_seed)` (30_encoding.md R67). -/
  | sendRsp (newSeed : Word64)
deriving DecidableEq, Repr

variable {w : Nat}

/-- The transfer of the step taken in a state while the environment drives `p`, if it is one: both sides of the channel
assert, and reset is not asserted. -/
def eventUnder (p : Inputs w) (s : State w) : Option (Event w) :=
  if p.reset then none
  else
    match s.phase with
    | .idle => p.cmd.map fun x => .takeCmd (commandOf x)
    | .run => if p.outReady then s.out.map .sendOut else none
    | .resp => if p.rspReady then s.rsp.map .sendRsp else none

/-- The transfer of the step taken in a state, if it is one. -/
def event (s : State w) : Option (Event w) :=
  eventUnder s.sample s

/-- The transfers of the first `n` steps from `s` under the environment `env`, in order. -/
def traceUnder (env : Nat → Inputs w) (s : State w) : Nat → List (Event w)
  | 0 => []
  | n + 1 => traceUnder env s n ++ (eventUnder (env n) (course env s n)).toList

/-- The transfers of the next `n` steps of the machine, in order. -/
def trace : Nat → State → List Event
  | 0, _ => []
  | n + 1, s =>
    (event s).toList ++
      match step s with
      | .next t => trace n t
      | .fault _ => []
      | .refused _ => []

end Sys2Proof.Machine

namespace Sys2Proof

/-- Beat number `k`, from 0, of a command, as it stands on OUT: at the offset where the one before ended, with the data of
the (k+1)-th stepped value (43_command_sequencer.md R142, R143). -/
def Command.beat {w : Nat} (c : Command w) (k : Nat) : Beat w :=
  { off := BitVec.ofNat w (Machine.offsetAfter c.op c.size.toNat k)
    n := BitVec.ofNat 4 (Machine.beatAt c.op c.size.toNat k).cells
    data := Machine.dataOf Config.byteOrder (Machine.beatAt c.op c.size.toNat k) (Machine.lcgIter (k + 1) c.seed) }

/-- The transfers of one command in order: `take CMD`, the `K` events `send OUT`, `send RSP` (43_command_sequencer.md
R151). -/
def Command.transfers {w : Nat} (c : Command w) : List (Machine.Event w) :=
  .takeCmd c :: (List.range c.steps).map (fun k => .sendOut (c.beat k)) ++ [.sendRsp c.result.2]

end Sys2Proof
end

