-- ==== Sys2Proof/Safety.lean ====
section
/-! DEFINITION. What claims are stated in: the invariant of the registers, where a command stands after `k` beats, a run
of the machine, and the environments claims speak of. -/

namespace Sys2Proof

/-- A moment at which reset is not asserted and the sink and the requester take whatever is presented (R158). -/
def Inputs.isWilling {w : Nat} (p : Inputs w) : Bool :=
  !p.reset && p.outReady && p.rspReady

end Sys2Proof

namespace Sys2Proof.Machine

variable {w : Nat}

/-- `n` steps from `s` lead to `t`, with no fault and no refusal on the way. -/
def Runs (n : Nat) (s t : State) : Prop :=
  Host.Core.run Sys2Proof.core n s = .next t

/-- The invariants of the working registers that speak of one state alone (10_state.md R29 (b), (c), the RESP clause;
20_memory.md R49): in RUN, `OFF + REM` is a size, so `OFF` never wraps; a chunk beat stands at a multiple of the chunk
size and a tail beat at or after the last such multiple; in RESP nothing is left. -/
def RegistersOk (s : State w) : Prop :=
  (s.phase = .run →
    s.off.toNat + s.rem.toNat < 2 ^ w ∧
    (chunkLen s.mode ≤ s.rem.toNat → s.off.toNat % chunkLen s.mode = 0) ∧
    (s.rem.toNat < chunkLen s.mode →
      chunkLen s.mode * ((s.off.toNat + s.rem.toNat) / chunkLen s.mode) ≤ s.off.toNat)) ∧
  (s.phase = .resp → s.rem.toNat = 0)

/-- The invariant of the machine: the registers, and the destination in its canonical form. -/
def Inv (s : State w) : Prop :=
  RegistersOk s ∧ s.dst.wf

/-- The cells of the destination are those of the command up to offset `n`, and from there on what they were in `prior`
(20_memory.md R47, 60_exceptions.md R174). -/
def CellsUpTo (c : Command w) (prior : Memory) (n : Nat) (m : Memory) : Prop :=
  (∀ p, p < n → m.read p = c.result.1[p]?) ∧ (∀ p, n ≤ p → m.read p = prior.read p)

/-- The command `c`, accepted over the destination `prior` with the responses `rs` taken before, stands in RUN after
exactly `k` beats (10_state.md R29, 60_exceptions.md R174). -/
structure Running (c : Command w) (prior : Memory) (rs : List Word64) (k : Nat) (s : State w) : Prop where
  phase : s.phase = .run
  mode : s.mode = c.op
  count : k ≤ c.steps
  gen : s.S = lcgIter k c.seed
  off : s.off.toNat = offsetAfter c.op c.size.toNat k
  rem : s.off.toNat + s.rem.toNat = c.size.toNat
  cells : CellsUpTo c prior s.off.toNat s.dst
  rsps : s.responses = rs

/-- Every beat of the command `c` has been transferred and its response has not (10_state.md R29). -/
structure Responding (c : Command w) (prior : Memory) (rs : List Word64) (s : State w) : Prop where
  phase : s.phase = .resp
  gen : s.S = c.result.2
  rem : s.rem = 0
  off : s.off = c.size
  cells : CellsUpTo c prior c.size.toNat s.dst
  rsps : s.responses = rs

/-- The command `c` is complete: its response has been taken and CORE is IDLE (43_command_sequencer.md R146, R158). -/
structure Completed (c : Command w) (prior : Memory) (rs : List Word64) (s : State w) : Prop where
  phase : s.phase = .idle
  cells : CellsUpTo c prior c.size.toNat s.dst
  rsps : s.responses = rs ++ [c.result.2]

/-- The next step finds CORE idle and takes the command `c` (43_command_sequencer.md R141). -/
def Offered (c : Command w) (s : State w) : Prop :=
  s.phase = .idle ∧ s.sample.reset = false ∧ s.sample.cmd = some c.word

/-- The environment drives `env`; its first sample finds CORE idle and offers the command `c` (43_command_sequencer.md
R141). -/
def OfferedUnder (env : Nat → Inputs w) (c : Command w) (s : State w) : Prop :=
  s.phase = .idle ∧ (env 0).reset = false ∧ (env 0).cmd = some c.word

/-- Reset is never asserted. -/
def NoReset (env : Nat → Inputs w) : Prop :=
  ∀ n, (env n).reset = false

/-- Weak fairness: from no moment on is the action enabled for ever and never taken. -/
def WeaklyFair (enabled taken : Nat → Prop) : Prop :=
  ∀ n, ∃ m, n ≤ m ∧ (enabled m → taken m)

/-- The sink's duty, "eventually takes every beat presented", as weak fairness of the sink (43_command_sequencer.md R150
(a)). -/
def SinkFair (env : Nat → Inputs w) (s : State w) : Prop :=
  WeaklyFair (fun n => (course env s n).outValid = true) (fun n => (env n).outReady = true)

/-- The requester's duty, "eventually takes every response presented", as weak fairness of the requester
(43_command_sequencer.md R150 (b)). -/
def RequesterFair (env : Nat → Inputs w) (s : State w) : Prop :=
  WeaklyFair (fun n => (course env s n).rspValid = true) (fun n => (env n).rspReady = true)

/-- Two states with the same registers of CORE, whatever the environment around them. -/
def SameRegisters (s t : State w) : Prop :=
  s.phase = t.phase ∧ s.mode = t.mode ∧ s.S = t.S ∧ s.rem = t.rem ∧ s.off = t.off

/-- From step `n` on CORE waits for ever in RUN for a sink that never takes the beat presented, or in RESP for a requester
that never takes the response presented: "a stuck state caused by the environment" (43_command_sequencer.md R150). -/
def WaitsForEver (env : Nat → Inputs w) (s : State w) (n : Nat) : Prop :=
  (∀ m, n ≤ m → (course env s m).busy = true ∧ SameRegisters (course env s n) (course env s m) ∧
      (course env s m).dst = (course env s n).dst) ∧
  ((∀ m, n ≤ m → (course env s m).outValid = true ∧ (env m).outReady = false) ∨
   (∀ m, n ≤ m → (course env s m).rspValid = true ∧ (env m).rspReady = false))

/-- Neither state differs from the other outside CORE's registers and the destination. -/
def SameEnvironment (s t : State w) : Prop :=
  s.responses = t.responses ∧ s.inputs = t.inputs ∧ s.draws = t.draws

end Sys2Proof.Machine
end

