-- ==== Sys2Proof/Certificates/Slice0/Obligations.lean ====
section
/-! DEFINITION. The statements for the provers, from the numbered rules of spec/. In them `lcgNext`, `fill`, `beatPlan` and the
other functions are the model's; a number written out is the spec's. -/

open Sys2Proof Sys2Proof.Machine

/-- Every well-formed instruction (a command with any size and any seed) has a word that decodes to it; every command word
decodes to a well-formed instruction whose word is that word; an instruction that is not well formed (an internal
operation) has no word. (R68.) -/
def Obligations.DecodeAndEncodeAgree : Prop :=
  (∀ i : Instr, i.wellFormed = true → ∃ x, encode i = some x ∧ decodeCmd x = i) ∧
  (∀ x : CmdWord, (decodeCmd x).wellFormed = true ∧ encode (decodeCmd x) = some x) ∧
  (∀ i : Instr, i.wellFormed = false → encode i = none)

/-- For every SIZE_W w, every op, size and seed: bits 0 to 63 of the packed word are the seed, bits 64 to 63+w the size,
bit 64+w is 0 for FILL_BYTES and 1 for FILL_LETTERS; the three fields read from the packed word are the fields packed;
and packing the fields read from any word gives that word. (R61.) -/
def Obligations.CommandWordLayoutAtEveryWidth : Prop :=
  ∀ (w : Nat),
    (∀ (op : Op) (size : BitVec w) (seed : Word64),
      (∀ j, j < 64 → (packCmd w op size seed).getLsbD j = seed.getLsbD j) ∧
      (∀ j, j < w → (packCmd w op size seed).getLsbD (64 + j) = size.getLsbD j) ∧
      (packCmd w op size seed).getLsbD (64 + w) = decide (op = .letters) ∧
      cmdSeed w (packCmd w op size seed) = seed ∧
      cmdSize w (packCmd w op size seed) = size ∧
      cmdOp w (packCmd w op size seed) = op) ∧
    (∀ x : BitVec (1 + w + 64), packCmd w (cmdOp w x) (cmdSize w x) (cmdSeed w x) = x)

/-- For every 129-bit command word: with bit 128 clear it decodes to FILL_BYTES, with bit 128 set to FILL_LETTERS, in both
cases with the size bits 127 to 64 and the seed bits 63 to 0 as they stand. (R62, R63.) -/
def Obligations.OpBitSelectsTheCommand : Prop :=
  ∀ x : CmdWord,
    (x.getLsbD 128 = false → decodeCmd x = .fillBytes (x.extractLsb' 64 64) (x.extractLsb' 0 64)) ∧
    (x.getLsbD 128 = true → decodeCmd x = .fillLetters (x.extractLsb' 64 64) (x.extractLsb' 0 64))

/-- The words 1_0000000000000020_490C734AD1CCF6E9 (P1), 0_0000000000000008_EDE02768AAF95334 (P2),
1_000000000000000E_890CDFCE8116017E and 0_0000000000000000_614D8D4C5E98C13F (P3) decode to the commands the programs
write them for. A number of more than 129 bits is no command word (the model's reading of the host interface, log 13).
(Derived: 95_test_vectors.md section 7; 30_encoding.md section 1.) -/
def Obligations.SampleCommandWordsDecode : Prop :=
  decodeTableWord 136 0x10000000000000020490C734AD1CCF6E9 = some (.fillLetters 32 0x490C734AD1CCF6E9) ∧
  decodeTableWord 136 0x00000000000000008EDE02768AAF95334 = some (.fillBytes 8 0xEDE02768AAF95334) ∧
  decodeTableWord 136 0x1000000000000000E890CDFCE8116017E = some (.fillLetters 14 0x890CDFCE8116017E) ∧
  decodeTableWord 136 0x00000000000000000614D8D4C5E98C13F = some (.fillBytes 0 0x614D8D4C5E98C13F) ∧
  ∀ n w, 2 ^ 129 ≤ w → decodeTableWord n w = none

/-- For every SIZE_W w: bits 0 to 95 of a packed beat word are DATA, bits 96 to 99 N, bits 100 to 99+w OFF, and the fields
read back are the fields packed. In every beat CORE presents N is 1, 8 or 12 and every DATA bit from 8N up is zero.
The effect of a beat on the destination is that cell j of the beat, DATA[8j+7:8j], goes to offset OFF + j for j below
N and no other cell changes. In a state in which OFF plus the cells passes 2^64, which no run reaches, the cells land
past 2^64 without wrap: the model's choice, log 12. (Derived: 30_encoding.md section 1 (R65).) -/
def Obligations.BeatWordLayoutAtEveryWidth : Prop :=
  (∀ (w : Nat) (off : BitVec w) (n : BitVec 4) (data : BitVec 96),
    (∀ j, j < 96 → (packBeat w off n data).getLsbD j = data.getLsbD j) ∧
    (∀ j, j < 4 → (packBeat w off n data).getLsbD (96 + j) = n.getLsbD j) ∧
    (∀ j, j < w → (packBeat w off n data).getLsbD (100 + j) = off.getLsbD j) ∧
    beatOff w (packBeat w off n data) = off ∧ beatN w (packBeat w off n data) = n ∧
    beatData w (packBeat w off n data) = data) ∧
  (∀ (s : State) (b : Beat), s.out = some b →
    (b.n = 1 ∨ b.n = 8 ∨ b.n = 12) ∧ (∀ j, 8 * b.n.toNat ≤ j → b.data.getLsbD j = false)) ∧
  (∀ (s : State) (b : Beat), s.out = some b → s.sample.reset = false → s.sample.outReady = true →
    ∃ t, step s = .next t ∧
      (∀ j, j < b.n.toNat → t.dst.read (b.off.toNat + j) = some (b.data.extractLsb' (8 * j) 8)) ∧
      (∀ a, a < b.off.toNat ∨ b.off.toNat + b.n.toNat ≤ a → t.dst.read a = s.dst.read a))

/-- At every SIZE_W, in every state in which CORE presents a beat: N = 8 happens exactly when MODE is 0 and REM is at
least 8, N = 12 exactly when MODE is 1 and REM is at least 12, and otherwise N = 1. (R66, which the spec marks as
derived.) (Derived: 30_encoding.md section 1 (R66); 43_command_sequencer.md section 2.) -/
def Obligations.BeatKindFollowsFromTheCommand : Prop :=
  ∀ (w : Nat) (s : State w) (b : Beat w), s.out = some b →
    (b.n = 8 ↔ s.mode = .bytes ∧ 8 ≤ s.rem.toNat) ∧
    (b.n = 12 ↔ s.mode = .letters ∧ 12 ≤ s.rem.toNat) ∧
    (b.n = 1 ↔ (s.mode = .bytes ∧ s.rem.toNat ≤ 7) ∨ (s.mode = .letters ∧ s.rem.toNat ≤ 11))

/-- For every state, executing STEP answers the next state that differs from it in S alone, and the new S, read as an
unsigned integer, is (S * 1664525 + 1013904223) mod 2^64. (The spec runs STEP inside a beat and nowhere else; that
STEP executed on its own is this register write in every state, IDLE and RESP among them, is the model's reading, log
9.) (Derived: 40_lcg_step.md section 1 (R80); 30_encoding.md section 3 (R70).) -/
def Obligations.StepReplacesTheGeneratorState : Prop :=
  ∀ s : State, ∃ v : Word64, exec .step s = .next { s with S := v } ∧
    v.toNat = (s.S.toNat * 1664525 + 1013904223) % 2 ^ 64

/-- In every state in RUN with reset not asserted, a step leaves S as it is, or it is the transfer of a beat and the new S
is the S that STEP alone would give. (R22.) -/
def Obligations.EveryBeatIsOneStep : Prop :=
  ∀ s : State, s.phase = .run → s.sample.reset = false → ∃ t, step s = .next t ∧
    ((s.selected.isSome = true ∧ s.sample.outReady = true ∧ ∃ u, exec .step s = .next u ∧ t.S = u.S) ∨
     (¬ (s.selected.isSome = true ∧ s.sample.outReady = true) ∧ t.S = s.S))

/-- For every 64-bit s the integer s * 1664525 + 1013904223 is below 2^85 and lcg_next(s) is its bits 63 to 0; for every k
from 1 to 64, lcg_next(s) mod 2^k is ((s mod 2^k) * (A mod 2^k) + (C mod 2^k)) mod 2^k; and the byte a BTAIL beat
writes is (S[7:0] * 13 + 95) mod 256. (R82 and R83, which the spec marks as derived.) (Derived: 40_lcg_step.md section
1 (R82); 40_lcg_step.md section 2 (R83).) -/
def Obligations.LowBitsDependOnLowBits : Prop :=
  (∀ s : Word64, s.toNat * 1664525 + 1013904223 < 2 ^ 85 ∧
    ∀ j, j < 64 → (lcgNext s).getLsbD j = (s.toNat * 1664525 + 1013904223).testBit j) ∧
  (∀ (k : Nat) (s : Word64), 1 ≤ k → k ≤ 64 →
    (lcgNext s).toNat % 2 ^ k =
      ((s.toNat % 2 ^ k) * (1664525 % 2 ^ k) + 1013904223 % 2 ^ k) % 2 ^ k) ∧
  (∀ s : Word64, (btail (lcgNext s)).toNat = ((s.extractLsb' 0 8).toNat * 13 + 95) % 256)

/-- For every 64-bit value, lcg_prev(lcg_next(s)) = s and lcg_next(lcg_prev(t)) = t, with A_INV = 0xEEA56631FEE058C5 the
inverse of A modulo 2^64. (R84, which the spec marks as derived.) (Derived: 40_lcg_step.md section 2 (R84).) -/
def Obligations.StepIsABijection : Prop :=
  (∀ s : Word64, lcgPrev (lcgNext s) = s) ∧ (∀ t : Word64, lcgNext (lcgPrev t) = t) ∧
  (1664525 * 0xEEA56631FEE058C5) % 2 ^ 64 = 1 ∧ lcgAInv = 0xEEA56631FEE058C5

/-- There is no s with lcg_next(s) = s; and a command whose beats are exactly one does not return its own seed. (R85,
which the spec marks as derived.) (Derived: 40_lcg_step.md section 2 (R85).) -/
def Obligations.StepHasNoFixedPoint : Prop :=
  (∀ s : Word64, lcgNext s ≠ s) ∧
  (∀ (order : ByteOrder) (op : Op) (size : Nat) (seed : Word64),
    stepCount op size = 1 → (fill order op size seed).2 ≠ seed)

/-- For every k and s, lcg_next^k(s) is (A^k * s + C * (A^(k-1) + ... + A + 1)) mod 2^64, the sum empty for k = 0. (R86,
which the spec marks as derived.) (Derived: 40_lcg_step.md section 2 (R86).) -/
def Obligations.StepsInClosedForm : Prop :=
  ∀ (k : Nat) (s : Word64),
    (lcgIter k s).toNat =
      (1664525 ^ k * s.toNat + 1013904223 * ∑ i ∈ Finset.range k, 1664525 ^ i) % 2 ^ 64

/-- For every k up to 64, every s and every n, the low k bits of the state after n steps equal the low k bits of s exactly
when 2^k divides n. With k = 64 this is the full period 2^64. (R88, which the spec takes from general knowledge, the
Hull-Dobell theorem; log 21.) (Derived: 40_lcg_step.md section 2 (R88).) -/
def Obligations.LowBitsHaveFullPeriod : Prop :=
  ∀ (k n : Nat) (s : Word64), k ≤ 64 →
    ((lcgIter n s).toNat % 2 ^ k = s.toNat % 2 ^ k ↔ 2 ^ k ∣ n)

/-- For every stepped value v and j below 8, cell j of the data of a BCHUNK beat is v[8j+7:8j] at little and
v[63-8j:56-8j] at big; the data of the three other beats is the same at both orders; the order the machine uses is
little. (R44.) -/
def Obligations.ByteOrderOfAChunk : Prop :=
  (∀ (v : Word64) (j : Nat), j < 8 →
    dataCell (dataOf .little .bchunk v) j = v.extractLsb' (8 * j) 8 ∧
    dataCell (dataOf .big .bchunk v) j = v.extractLsb' (56 - 8 * j) 8) ∧
  (∀ (v : Word64) (k : BeatKind), k ≠ .bchunk → dataOf .little k v = dataOf .big k v) ∧
  Config.byteOrder = .little

/-- For every 5-bit field value f: up to 25 the letter is the code 0x61 + f, from 26 up it is 0x61 + (f - 26). (R90.) -/
def Obligations.FieldReductionTable : Prop :=
  ∀ f : BitVec 5,
    (f.toNat ≤ 25 → (letterOfField f).toNat = 0x61 + f.toNat) ∧
    (26 ≤ f.toNat → (letterOfField f).toNat = 0x61 + (f.toNat - 26))

/-- For every 64-bit v the letter of an LTAIL beat is the code 0x61 + (v mod 26) of the unsigned integer v; for v = 2^64 -
1 the remainder is 15, and 2^64 mod 26 is 16. (R91.) -/
def Obligations.WholeValueReduction : Prop :=
  (∀ v : Word64, (ltail v).toNat = 0x61 + v.toNat % 26) ∧ (ltail 0xFFFFFFFFFFFFFFFF).toNat = 0x61 + 15 ∧
  (2 ^ 64 - 1) % 26 = 15 ∧ 2 ^ 64 % 26 = 16

/-- For every v and lane i below 12, lane i of LCHUNK is the code 0x61 + (v[5i+4:5i] mod 26) and the letter of LTAIL is
0x61 + (v mod 26); for v = 0xEDE02768AAF95334 lane 0 is u (0x75) and the tail letter is e (0x65). (R124.) -/
def Obligations.TheTwoLetterPathsReduceDifferently : Prop :=
  (∀ (v : Word64) (i : Nat), i < 12 →
    (dataCell (lchunk v) i).toNat = 0x61 + (v.extractLsb' (5 * i) 5).toNat % 26) ∧
  (∀ v : Word64, (ltail v).toNat = 0x61 + v.toNat % 26) ∧
  dataCell (lchunk 0xEDE02768AAF95334) 0 = 0x75 ∧ ltail 0xEDE02768AAF95334 = 0x65

/-- Every cell of the output of FILL_LETTERS, for every size and seed, lies in 0x61 .. 0x7A; and so does every cell of
every beat CORE presents while MODE is 1, in every state. (R126.) -/
def Obligations.EveryLetterIsInRange : Prop :=
  (∀ (order : ByteOrder) (size : Nat) (seed : Word64) (b : Byte),
    b ∈ (fill order .letters size seed).1 → 0x61 ≤ b.toNat ∧ b.toNat ≤ 0x7A) ∧
  (∀ (s : State) (b : Beat) (j : Nat), s.mode = .letters → s.out = some b → j < b.n.toNat →
    0x61 ≤ (dataCell b.data j).toNat ∧ (dataCell b.data j).toNat ≤ 0x7A)

/-- Two stepped values that agree on bits 59 to 0 give the same twelve letters; and in every state an LCHUNK beat that
fires leaves all 64 bits of the stepped value in S. (R129.) -/
def Obligations.TopFourBitsReachNoLane : Prop :=
  (∀ v v' : Word64, v.extractLsb' 0 60 = v'.extractLsb' 0 60 → lchunk v = lchunk v') ∧
  (∀ s : State, s.phase = .run → s.mode = .letters → 12 ≤ s.rem.toNat →
    ∃ t, exec .lchunk s = .next t ∧ t.S = lcgNext s.S)

/-- For every byte value b there is a seed for which FILL_BYTES 1, seed writes b. (Derived: 41_fill_bytes.md section 3
(R107).) -/
def Obligations.EveryByteValueOccurs : Prop :=
  ∀ (order : ByteOrder) (b : Byte), ∃ seed : Word64, (fill order .bytes 1 seed).1 = [b]

/-- In every state in RUN with MODE 0 and REM in the range of the rule, CORE presents the beat with OFF, N = 8 and its
data, and executing BCHUNK answers the next state in which S is the stepped value v, OFF is 8 more, REM is 8 less, the
cells at OFF are those of the beat, every other cell reads as before, and PHASE, MODE and the environment are
unchanged. At the big byte order, byte j of bchunk(v) is v[63-8j:56-8j]. In a state in which OFF plus the cells passes
2^64, which no run reaches, the cells land past 2^64 without wrap: the model's choice, log 12. (Derived:
41_fill_bytes.md section 2 (R101).) -/
def Obligations.BchunkWritesEightBytes : Prop :=
  (∀ s : State, s.phase = .run → s.mode = .bytes → 8 ≤ s.rem.toNat →
    s.out = some { off := s.off, n := 8, data := (lcgNext s.S).setWidth 96 } ∧
    ∃ d : Memory,
      exec .bchunk s = .next { s with S := lcgNext s.S, off := s.off + 8, rem := s.rem - 8, dst := d } ∧
      (∀ j, j < 8 → d.read (s.off.toNat + j) = some ((lcgNext s.S).extractLsb' (8 * j) 8)) ∧
      (∀ a, a < s.off.toNat ∨ s.off.toNat + 8 ≤ a → d.read a = s.dst.read a)) ∧
  (∀ (v : Word64) (j : Nat), j < 8 → byteOf (bchunk .big v) j = v.extractLsb' (56 - 8 * j) 8)

/-- In every state in RUN with MODE 0 and REM in the range of the rule, CORE presents the beat with OFF, N = 1 and its
data, and executing BTAIL answers the next state in which S is the stepped value v, OFF is 1 more, REM is 1 less, the
cells at OFF are those of the beat, every other cell reads as before, and PHASE, MODE and the environment are
unchanged. (R102.) -/
def Obligations.BtailWritesTheLowByte : Prop :=
  (∀ s : State, s.phase = .run → s.mode = .bytes → 1 ≤ s.rem.toNat → s.rem.toNat ≤ 7 →
    s.out = some { off := s.off, n := 1, data := ((lcgNext s.S).extractLsb' 0 8).setWidth 96 } ∧
    ∃ d : Memory,
      exec .btail s = .next { s with S := lcgNext s.S, off := s.off + 1, rem := s.rem - 1, dst := d } ∧
      d.read s.off.toNat = some (BitVec.ofNat 8 ((lcgNext s.S).toNat % 256)) ∧
      (∀ a, a < s.off.toNat ∨ s.off.toNat + 1 ≤ a → d.read a = s.dst.read a))

/-- In every state in RUN with MODE 1 and REM in the range of the rule, CORE presents the beat with OFF, N = 12 and its
data, and executing LCHUNK answers the next state in which S is the stepped value v, OFF is 12 more, REM is 12 less,
the cells at OFF are those of the beat, every other cell reads as before, and PHASE, MODE and the environment are
unchanged. Lane i stands at DATA[8i+7:8i]. In a state in which OFF plus the cells passes 2^64, which no run reaches,
the cells land past 2^64 without wrap: the model's choice, log 12. (Derived: 42_fill_letters.md section 2 (R121).) -/
def Obligations.LchunkWritesTwelveLetters : Prop :=
  (∀ s : State, s.phase = .run → s.mode = .letters → 12 ≤ s.rem.toNat →
    s.out = some { off := s.off, n := 12, data := lchunk (lcgNext s.S) } ∧
    ∃ d : Memory,
      exec .lchunk s = .next { s with S := lcgNext s.S, off := s.off + 12, rem := s.rem - 12, dst := d } ∧
      (∀ i, i < 12 → d.read (s.off.toNat + i) =
        some (BitVec.ofNat 8 (0x61 + ((lcgNext s.S).extractLsb' (5 * i) 5).toNat % 26))) ∧
      (∀ a, a < s.off.toNat ∨ s.off.toNat + 12 ≤ a → d.read a = s.dst.read a)) ∧
  (∀ (v : Word64) (i : Nat), i < 12 →
    (lchunk v).extractLsb' (8 * i) 8 = BitVec.ofNat 8 (0x61 + (v.extractLsb' (5 * i) 5).toNat % 26))

/-- In every state in RUN with MODE 1 and REM in the range of the rule, CORE presents the beat with OFF, N = 1 and its
data, and executing LTAIL answers the next state in which S is the stepped value v, OFF is 1 more, REM is 1 less, the
cells at OFF are those of the beat, every other cell reads as before, and PHASE, MODE and the environment are
unchanged. (R123.) -/
def Obligations.LtailWritesOneLetter : Prop :=
  (∀ s : State, s.phase = .run → s.mode = .letters → 1 ≤ s.rem.toNat → s.rem.toNat ≤ 11 →
    s.out = some { off := s.off, n := 1, data := (BitVec.ofNat 8 (0x61 + (lcgNext s.S).toNat % 26)).setWidth 96 } ∧
    ∃ d : Memory,
      exec .ltail s = .next { s with S := lcgNext s.S, off := s.off + 1, rem := s.rem - 1, dst := d } ∧
      d.read s.off.toNat = some (BitVec.ofNat 8 (0x61 + (lcgNext s.S).toNat % 26)) ∧
      (∀ a, a < s.off.toNat ∨ s.off.toNat + 1 ≤ a → d.read a = s.dst.read a))

/-- For every kind of beat and every state in which the sequencer does not select it, executing the operation answers the
same state. The spec says a rule fires only when it is enabled and that between firings nothing changes; that an
operation executed unselected is therefore without effect is the model's own reading (log 8). (Derived:
43_command_sequencer.md section 2; 30_encoding.md section 3.) -/
def Obligations.UnselectedBeatChangesNothing : Prop :=
  ∀ (k : BeatKind) (s : State), s.selected ≠ some k → exec k.instr s = .next s

/-- In every state in which a BCHUNK beat fires, the 8 cells at the old OFF read afterwards as one little-endian 64-bit
integer are the stepped value. (R46, which the spec marks as derived. In a state in which OFF plus the cells passes
2^64, which no run reaches, the cells land past 2^64 without wrap: the model's choice, log 12.) (Derived: 20_memory.md
section 2 (R46).) -/
def Obligations.ChunkReadsBackAsTheSteppedValue : Prop :=
  ∀ s t : State, s.phase = .run → s.mode = .bytes → 8 ≤ s.rem.toNat → exec .bchunk s = .next t →
    t.dst.readLittle s.off.toNat 8 = some (lcgNext s.S).toNat

/-- In every state in IDLE, for every size and every seed, executing FILL_BYTES answers the state with MODE 0, S the seed,
REM the size, OFF 0, PHASE RUN and everything else (the destination among it) unchanged; FILL_LETTERS the same with
MODE 1. No size and no seed is refused. From then on a step does not depend on the CMD signals. (R141.) -/
def Obligations.CommandIsAcceptedInIdle : Prop :=
  (∀ (s : State) (size : Size) (seed : Word64), s.phase = .idle →
    exec (.fillBytes size seed) s =
      .next { s with mode := .bytes, S := seed, rem := size, off := 0, phase := .run } ∧
    exec (.fillLetters size seed) s =
      .next { s with mode := .letters, S := seed, rem := size, off := 0, phase := .run }) ∧
  (∀ (s : State) (p : Inputs) (rest : List Inputs) (cmd : Option CmdWord), s.phase ≠ .idle → s.inputs = p :: rest →
    step { s with inputs := { p with cmd := cmd } :: rest } = step s)

/-- In every state in RUN or RESP: CMD ready is deasserted; executing a command changes nothing; and a step is the same
whatever stands on the CMD channel and whatever destination the platform offers to bind. (That a binding offered while
busy has no effect is the model's choice, log 7; that a command executed outside IDLE answers the same state is the
model's reading, log 10.) (Derived: 43_command_sequencer.md section 2 (R147); 20_memory.md section 4 (R56);
70_reset_and_hazards.md section 2 (R200).) -/
def Obligations.CommandOfferedWhileBusyWaits : Prop :=
  ∀ s : State, s.phase ≠ .idle →
    s.cmdReady = false ∧
    (∀ (size : Size) (seed : Word64),
      exec (.fillBytes size seed) s = .next s ∧ exec (.fillLetters size seed) s = .next s) ∧
    (∀ (p : Inputs) (rest : List Inputs) (cmd : Option CmdWord) (bind : Option (List Host.Cell)),
      s.inputs = p :: rest →
      step { s with inputs := { p with cmd := cmd, bind := bind } :: rest } = step s)

/-- For every SIZE_W and every REM: MODE 0 selects BCHUNK exactly when REM is at least 8 and BTAIL exactly when REM is 1
to 7; MODE 1 selects LCHUNK exactly when REM is at least 12 and LTAIL exactly when REM is 1 to 11; at REM 0 no beat is
selected; the beats have 8, 1, 12, 1 cells; in RUN the selection is that of MODE and REM alone; and once a tail beat
is chosen for some REM, no smaller REM chooses a chunk beat. (R142.) -/
def Obligations.BeatSelectionTable : Prop :=
  (∀ (w : Nat) (r : Size w),
    (selectBeat .bytes r = some .bchunk ↔ 8 ≤ r.toNat) ∧
    (selectBeat .bytes r = some .btail ↔ 1 ≤ r.toNat ∧ r.toNat ≤ 7) ∧
    (selectBeat .letters r = some .lchunk ↔ 12 ≤ r.toNat) ∧
    (selectBeat .letters r = some .ltail ↔ 1 ≤ r.toNat ∧ r.toNat ≤ 11) ∧
    (∀ op, selectBeat op r = none ↔ r.toNat = 0)) ∧
  (BeatKind.bchunk.cells = 8 ∧ BeatKind.btail.cells = 1 ∧ BeatKind.lchunk.cells = 12 ∧ BeatKind.ltail.cells = 1) ∧
  (∀ (w : Nat) (s : State w), s.phase = .run → s.selected = selectBeat s.mode s.rem) ∧
  (∀ (w : Nat) (op : Op) (r r' : Size w), r'.toNat ≤ r.toNat →
    (selectBeat op r = some .btail ∨ selectBeat op r = some .ltail) →
    selectBeat op r' ≠ some .bchunk ∧ selectBeat op r' ≠ some .lchunk)

/-- With reset not asserted: in IDLE with a word offered on CMD, a step is exec of the decoded instruction; in RUN with a
beat selected and the sink ready, a step is exec of that beat's operation; in both cases in the state with the sample
of the environment used up and, in IDLE, the platform's binding made. Around exec the step does nothing else. The step
is that of the machine of every SIZE_W, at SIZE_W = 64. A word placed by withFetchWord is the instruction the very
next step runs. (The sample and the binding are the model's own form of the environment, log 3, log 5, log 7, log 23.)
(Derived: 43_command_sequencer.md section 2; 30_encoding.md section 1.) -/
def Obligations.StepRunsTheOperationThatFires : Prop :=
  (∀ s : State, s.sample.reset = false →
    (∀ w, s.phase = .idle → s.sample.cmd = some w → step s = exec (decodeCmd w) s.sampled) ∧
    (∀ k, s.selected = some k → s.sample.outReady = true → step s = exec k.instr s.sampled)) ∧
  (∀ s : State, s.phase ≠ .idle ∨ s.sample.bind = none →
    s.sampled = { s with inputs := s.inputs.tail, draws := s.draws + 1 }) ∧
  (∀ (s : State) (cells : List Host.Cell), s.phase = .idle → s.sample.bind = some cells →
    s.sampled = { s with inputs := s.inputs.tail, draws := s.draws + 1, dst := Memory.ofCells cells }) ∧
  (∀ (s : State) (n w : Nat) (i : Instr), decodeTableWord n w = some i →
    step (s.withFetchWord n w) = exec i { s with phase := .idle, draws := s.draws + 1 }) ∧
  (∀ s : State, step s = .next (stepUnder s.sample s))

/-- In every state in RUN with REM above 0, with reset not asserted and the sink ready: CORE presents a beat with OFF, the
n of the selected beat and data, and the step answers a state in which cell j of data stands at OFF + j for j below n,
every other cell reads as before, S is lcg_next(S), OFF is n more, REM is n less, and PHASE and MODE are unchanged.
With the sink not ready the step leaves S and the presented beat as they are. In a state in which OFF plus the cells
passes 2^64, which no run reaches, the cells land past 2^64 without wrap: the model's choice, log 12. (Derived:
43_command_sequencer.md section 2 (R143).) -/
def Obligations.BeatTransferAdvancesTheCommand : Prop :=
  ∀ s : State, s.phase = .run → 0 < s.rem.toNat → s.sample.reset = false →
    (s.sample.outReady = false → ∃ t, step s = .next t ∧ t.out = s.out ∧ t.S = s.S) ∧
    (s.sample.outReady = true → ∃ (b : Beat) (k : BeatKind) (t : State),
      s.out = some b ∧ selectBeat s.mode s.rem = some k ∧ b.n.toNat = k.cells ∧ b.off = s.off ∧ step s = .next t ∧
      (∀ j, j < k.cells → t.dst.read (s.off.toNat + j) = some (b.data.extractLsb' (8 * j) 8)) ∧
      (∀ a, a < s.off.toNat ∨ s.off.toNat + k.cells ≤ a → t.dst.read a = s.dst.read a) ∧
      t.S = lcgNext s.S ∧ t.off = s.off + BitVec.ofNat 64 k.cells ∧ t.rem.toNat = s.rem.toNat - k.cells ∧
      t.phase = .run ∧ t.mode = s.mode)

/-- From every state in which a beat or a response is presented, for every schedule of samples of any length without reset
in which, for a beat, the sink is never ready and, for a response, the requester is never ready: that many steps lead
to a state with the same registers, the same destination, the same beat or response presented and no response
recorded. (R144.) -/
def Obligations.StallChangesNoRegister : Prop :=
  ∀ (s : State) (stall more : List Inputs), s.inputs = stall ++ more →
    ((s.out.isSome = true ∧ ∀ p ∈ stall, p.reset = false ∧ p.outReady = false) ∨
     (s.rsp.isSome = true ∧ ∀ p ∈ stall, p.reset = false ∧ p.rspReady = false)) →
    ∃ t, Runs stall.length s t ∧ SameRegisters s t ∧ t.dst = s.dst ∧ t.out = s.out ∧ t.rsp = s.rsp ∧
      t.responses = s.responses ∧ t.inputs = more

/-- In IDLE, with reset not asserted and nothing offered on CMD, a step answers a state with the same registers and the
same responses; the destination is unchanged unless the platform binds another (log 7). (Derived:
43_command_sequencer.md section 2.) -/
def Obligations.IdleWaitsForACommand : Prop :=
  ∀ s : State, s.phase = .idle → s.sample.reset = false → s.sample.cmd = none →
    ∃ t, step s = .next t ∧ SameRegisters s t ∧ t.responses = s.responses ∧
      (s.sample.bind = none → t.dst = s.dst)

/-- In every state in RUN with REM 0 and reset not asserted, whatever the channels carry, the step answers a state in RESP
with every other register and the destination unchanged; and no beat is presented before it, so a command accepted
with size 0 presents none. (R145.) -/
def Obligations.EndOfBeatsNeedsNothing : Prop :=
  ∀ s : State, s.phase = .run → s.rem = 0 → s.sample.reset = false →
    s.out = none ∧
    ∃ t, step s = .next t ∧ t.phase = .resp ∧ t.mode = s.mode ∧ t.S = s.S ∧ t.rem = s.rem ∧ t.off = s.off ∧
      t.dst = s.dst

/-- In every state in RESP with reset not asserted: CORE presents NEW_SEED = S; when the requester takes it, the step
answers a state in IDLE in which the requester has received exactly S after the responses it had, and S, REM, OFF,
MODE and the destination are unchanged. (R146.) -/
def Obligations.ResponseReturnsTheGeneratorState : Prop :=
  ∀ s : State, s.phase = .resp → s.sample.reset = false → s.sample.rspReady = true →
    s.rsp = some s.S ∧
    ∃ t, step s = .next t ∧ t.phase = .idle ∧ t.responses = s.responses ++ [s.S] ∧
      t.S = s.S ∧ t.rem = s.rem ∧ t.off = s.off ∧ t.mode = s.mode ∧ t.dst = s.dst

/-- At every SIZE_W, in every state: CMD ready exactly in IDLE, BUSY exactly outside it, OUT valid exactly in RUN with REM
above 0, RSP valid exactly in RESP and then with NEW_SEED = S; so at most one channel can transfer. (Derived:
10_state.md section 2 (R28); 30_encoding.md section 1 (R60, R64, R67); 60_exceptions.md section 2 (R173).) -/
def Obligations.ChannelSignalsFollowThePhase : Prop :=
  ∀ (w : Nat) (s : State w),
    (s.cmdReady = true ↔ s.phase = .idle) ∧ (s.busy = true ↔ s.phase ≠ .idle) ∧
    (s.outValid = true ↔ s.phase = .run ∧ 0 < s.rem.toNat) ∧
    (s.rspValid = true ↔ s.phase = .resp) ∧ (∀ x, s.rsp = some x ↔ s.phase = .resp ∧ x = s.S) ∧
    ¬ (s.cmdReady = true ∧ s.outValid = true) ∧ ¬ (s.cmdReady = true ∧ s.rspValid = true) ∧
    ¬ (s.outValid = true ∧ s.rspValid = true)

/-- For every state, whatever its registers and whatever the environment drives, a step answers a next state; and there is
no cause of an exception at all. (R170.) -/
def Obligations.NoStepFaults : Prop :=
  (∀ s : State, ∃ t, step s = .next t) ∧ (∀ _cause : Fault, False)

/-- State.reset is in IDLE with REM 0, OFF 0, MODE 0, CMD ready asserted, OUT valid and RSP valid deasserted; and the
reset input gives every state these same values and leaves its destination as it was. Nothing is said of S, which the
spec leaves unspecified. (R36.) -/
def Obligations.ResetStateIsTheTable : Prop :=
  (State.reset.phase = .idle ∧ State.reset.rem = 0 ∧ State.reset.off = 0 ∧ State.reset.mode = .bytes ∧
    State.reset.cmdReady = true ∧ State.reset.outValid = false ∧ State.reset.rspValid = false) ∧
  (∀ s : State, s.sample.reset = true → ∃ t, step s = .next t ∧
    t.phase = .idle ∧ t.rem = 0 ∧ t.off = 0 ∧ t.mode = .bytes ∧
    t.cmdReady = true ∧ t.outValid = false ∧ t.rspValid = false ∧ t.dst = s.dst)

/-- In every state, whatever the phase and whatever the CMD, OUT and RSP channels carry, a step with reset asserted is no
transfer and leads to IDLE with REM, OFF and MODE 0, CMD ready, OUT and RSP not valid, the destination untouched; A
and C are the constants they were. (R190.) -/
def Obligations.ResetWinsOverEveryRule : Prop :=
  ∀ s : State, s.sample.reset = true →
    event s = none ∧
    (∃ t, step s = .next t ∧ t.phase = .idle ∧ t.rem = 0 ∧ t.off = 0 ∧ t.mode = .bytes ∧
      t.cmdReady = true ∧ t.outValid = false ∧ t.rspValid = false ∧ t.dst = s.dst ∧ t.responses = s.responses) ∧
    (∀ v : Word64, (lcgNext v).toNat = (v.toNat * 1664525 + 1013904223) % 2 ^ 64)

/-- State.reset, and the state after reset of a CORE of every SIZE_W, meets the invariant of the registers and its
destination is in canonical form. (Derived: 10_state.md section 5.) -/
def Obligations.InvariantHoldsAtReset : Prop :=
  Inv State.reset ∧ ∀ w, Inv (State.resetAt w)

/-- From every state that meets the invariant (in RUN OFF + REM is below 2^64, with a whole chunk left OFF is a multiple
of the chunk size, with less left OFF is at or after the last such multiple; in RESP REM is 0; the destination is in
canonical form), whatever the environment drives, reset included, a step leads to a state that meets it; and the same
for a CORE of every SIZE_W, with 2^SIZE_W in place of 2^64. (R29 and R49, which the spec marks as derived or decided.)
(Derived: 10_state.md section 2 (R29); 20_memory.md section 3 (R49, R50); 00_scope.md section 4 (R6).) -/
def Obligations.EveryStepKeepsTheInvariant : Prop :=
  (∀ s t : State, Inv s → step s = .next t → Inv t) ∧
  (∀ (w : Nat) (p : Inputs w) (s : State w), Inv s → Inv (stepUnder p s))

/-- From every state in which a command is offered and taken, a step leads to the state of that command after 0 beats,
over the destination bound at that moment and with the responses taken so far. (Derived: 43_command_sequencer.md
section 2 (R141); 10_state.md section 2 (R29).) -/
def Obligations.AcceptanceStartsACommand : Prop :=
  ∀ (c : Command) (s : State), Offered c s →
    ∃ t, step s = .next t ∧ Running c s.sampled.dst s.responses 0 t

/-- Let a command stand in RUN after k beats: MODE is its op, S is lcg_next^k(seed), OFF is the offset after k beats, OFF
+ REM is its size, the destination holds the first OFF cells of its output and from there on what it held before. Then
a step without reset leads to the same with k beats (a beat is left and the sink does not take it), with k + 1 beats
(a beat is left and the sink takes it), or to RESP with S the new seed, REM 0, OFF the size and the whole output
written (no beat is left). From RESP a step without reset leads to the same or, when the response is taken, to IDLE
with the new seed received. (Derived: 10_state.md section 2 (R29); 60_exceptions.md section 3 (R174);
43_command_sequencer.md section 2.) -/
def Obligations.CommandStaysOnCourse : Prop :=
  (∀ (c : Command) (prior : Memory) (rs : List Word64) (k : Nat) (s : State),
    Running c prior rs k s → s.sample.reset = false →
    ∃ t, step s = .next t ∧
      ((k < c.steps ∧ s.sample.outReady = false ∧ Running c prior rs k t) ∨
       (k < c.steps ∧ s.sample.outReady = true ∧ Running c prior rs (k + 1) t) ∨
       (k = c.steps ∧ Responding c prior rs t))) ∧
  (∀ (c : Command) (prior : Memory) (rs : List Word64) (s : State),
    Responding c prior rs s → s.sample.reset = false →
    ∃ t, step s = .next t ∧
      ((s.sample.rspReady = false ∧ Responding c prior rs t) ∨
       (s.sample.rspReady = true ∧ Completed c prior rs t)))

/-- From every state in which a command c is taken, if the next K + 2 samples of the environment assert no reset and both
the sink and the requester are willing (K = size div chunk + size mod chunk), then K + 3 steps lead to IDLE with
exactly the samples after those left, the new seed of the big-step function received, every cell below size holding
the big-step output and every cell from size on (no terminator) what it held before. The same holds of a CORE of every
SIZE_W, for every environment that offers the command and is willing at the K + 2 moments after. (Derived:
43_command_sequencer.md section 3 (R158); 43_command_sequencer.md section 2 (R149); 20_memory.md section 3 (R48);
00_scope.md section 4 (R6).) -/
def Obligations.LayersAgreeInAWillingEnvironment : Prop :=
  (∀ (c : Command) (s : State) (first : Inputs) (rest more : List Inputs),
    Offered c s → s.inputs = first :: (rest ++ more) →
    rest.length = c.steps + 2 → (∀ p ∈ rest, p.isWilling = true) →
    ∃ t, Runs (c.steps + 3) s t ∧ Completed c s.sampled.dst s.responses t ∧ t.inputs = more) ∧
  (∀ (w : Nat) (c : Command w) (s : State w) (env : Nat → Inputs w), OfferedUnder env c s →
    (∀ n, 1 ≤ n → n ≤ c.steps + 2 → (env n).isWilling = true) →
    Completed c (s.taking (env 0)).dst s.responses (course env s (c.steps + 3)))

/-- From every state in which a command is taken, for every schedule of samples without reset in which the sink and the
requester are willing at no fewer than K + 2 moments, and unwilling in any way at the others, some number of steps
within the schedule leads to IDLE with the big-step output written, every other cell as before, and the big-step new
seed received. At every SIZE_W, for every environment without reset that offers the command: if the sink and the
requester are each weakly fair (from no moment on is a beat, or a response, presented for ever and never taken),
willing together or not, the command completes so; and in any case it either completes so, or from some step on CORE
waits for ever with BUSY asserted, the registers and the destination steady, in RUN for a sink that never takes the
beat or in RESP for a requester that never takes the response. (Derived: 43_command_sequencer.md section 2 (R144,
R149, R150); 43_command_sequencer.md section 3 (R152, R158); 00_scope.md section 4 (R6).) -/
def Obligations.StallsDelayACommandAndNothingElse : Prop :=
  (∀ (c : Command) (s : State) (first : Inputs) (rest more : List Inputs),
    Offered c s → s.inputs = first :: (rest ++ more) →
    (∀ p ∈ rest, p.reset = false) → c.steps + 2 ≤ (rest.filter Inputs.isWilling).length →
    ∃ n t, n ≤ rest.length ∧ Runs (n + 1) s t ∧ Completed c s.sampled.dst s.responses t) ∧
  (∀ (w : Nat) (c : Command w) (s : State w) (env : Nat → Inputs w), OfferedUnder env c s → NoReset env →
    (SinkFair env s → RequesterFair env s →
      ∃ n, Completed c (s.taking (env 0)).dst s.responses (course env s n)) ∧
    ((∃ n, Completed c (s.taking (env 0)).dst s.responses (course env s n)) ∨ ∃ n, WaitsForEver env s n))

/-- In a willing environment the transfers of the K + 3 steps of a command are: take CMD; then K beats, the k-th of them
the chunk beat while k is below size div chunk and the tail beat after, at the offset where the one before ended, with
the data of the (k+1)-th stepped value; then the response. At every SIZE_W and for every environment without reset
that offers the command, under every stalling: at every step the transfers so far are a beginning of that same
sequence, or have it as their beginning; and if the sink and the requester are weakly fair, they are at some step
exactly that sequence, with the command complete. (R151, which the spec marks as derived.) (Derived:
43_command_sequencer.md section 2 (R151); 43_command_sequencer.md section 3 (R158); 20_memory.md section 3 (R50);
00_scope.md section 4 (R6).) -/
def Obligations.TransfersOfOneCommandInOrder : Prop :=
  (∀ (c : Command) (s : State) (first : Inputs) (rest more : List Inputs),
    Offered c s → s.inputs = first :: (rest ++ more) →
    rest.length = c.steps + 2 → (∀ p ∈ rest, p.isWilling = true) →
    trace (c.steps + 3) s =
      .takeCmd c ::
        ((List.range c.steps).map fun k =>
          Event.sendOut
            { off := BitVec.ofNat 64 (offsetAfter c.op c.size.toNat k)
              n := BitVec.ofNat 4 (beatAt c.op c.size.toNat k).cells
              data := dataOf Config.byteOrder (beatAt c.op c.size.toNat k) (lcgIter (k + 1) c.seed) }) ++
        [.sendRsp (lcgIter c.steps c.seed)]) ∧
  (∀ (w : Nat) (c : Command w),
    c.transfers =
      .takeCmd c ::
        ((List.range c.steps).map fun k =>
          Event.sendOut
            { off := BitVec.ofNat w (offsetAfter c.op c.size.toNat k)
              n := BitVec.ofNat 4 (beatAt c.op c.size.toNat k).cells
              data := dataOf Config.byteOrder (beatAt c.op c.size.toNat k) (lcgIter (k + 1) c.seed) }) ++
        [.sendRsp (lcgIter c.steps c.seed)]) ∧
  (∀ (w : Nat) (c : Command w) (s : State w) (env : Nat → Inputs w), OfferedUnder env c s → NoReset env →
    (∀ n, traceUnder env s n <+: c.transfers ∨ c.transfers <+: traceUnder env s n) ∧
    (SinkFair env s → RequesterFair env s →
      ∃ n, traceUnder env s n = c.transfers ∧
        Completed c (s.taking (env 0)).dst s.responses (course env s n)))

/-- For both commands with size 0 and every seed: the big-step function writes nothing and returns the seed; and in the
machine, in a willing environment, the transfers are the command and one response, the seed, and the destination is
unchanged. (R103, R125.) -/
def Obligations.SizeZeroHasNoBeat : Prop :=
  (∀ (order : ByteOrder) (op : Op) (seed : Word64), fill order op 0 seed = ([], seed)) ∧
  (∀ (c : Command) (s : State) (first p q : Inputs) (more : List Inputs),
    c.size = 0 → Offered c s → s.inputs = first :: p :: q :: more →
    p.isWilling = true → q.isWilling = true →
    trace 3 s = [.takeCmd c, .sendRsp c.seed] ∧
    ∃ t, Runs 3 s t ∧ t.phase = .idle ∧ t.dst = s.sampled.dst ∧ t.responses = s.responses ++ [c.seed])

/-- Let a command stand in RUN after k beats and reset be asserted. The step leads to IDLE with the destination as it was
(the first OFF cells of the output, the rest as before the command) and no response. If the same command is then taken
and the environment is willing, K + 3 further steps complete it: the whole output is written, the cells from size on
are as before the first issue, and exactly one response has been received. (Derived: 70_reset_and_hazards.md section 1
(R191).) -/
def Obligations.AbandonedCommandCanBeReissued : Prop :=
  ∀ (c : Command) (prior : Memory) (rs : List Word64) (k : Nat) (s : State) (r first : Inputs) (rest more : List Inputs),
    Running c prior rs k s → s.inputs = r :: first :: (rest ++ more) → r.reset = true →
    first.reset = false → first.cmd = some c.word → first.bind = none →
    rest.length = c.steps + 2 → (∀ p ∈ rest, p.isWilling = true) →
    (∃ u, step s = .next u ∧ u.phase = .idle ∧ u.responses = rs ∧ CellsUpTo c prior s.off.toNat u.dst) ∧
    (∃ t, Runs (c.steps + 4) s t ∧ Completed c prior rs t)

/-- Let two states, with whatever S, REM, OFF, MODE, destinations and histories, both take the same command. Then the two
steps lead to states with the same registers. (R24.) -/
def Obligations.NoStateCarriesBetweenCommands : Prop :=
  ∀ (c : Command) (s s' : State), Offered c s → Offered c s' →
    ∃ t t', step s = .next t ∧ step s' = .next t' ∧ SameRegisters t t' ∧
      t.S = c.seed ∧ t.rem = c.size ∧ t.mode = c.op ∧ t.off = 0 ∧ t.phase = .run

/-- For every state and every other content of its destination: CORE presents the same beat and response, the step is the
same transfer, and it leads to states with the same registers and the same responses whose destinations agree on every
cell that the step wrote and elsewhere hold what they held. (R47.) -/
def Obligations.DestinationIsNeverRead : Prop :=
  ∀ (s : State) (m : Memory),
    State.out { s with dst := m } = s.out ∧ State.rsp { s with dst := m } = s.rsp ∧
    event { s with dst := m } = event s ∧
    ∃ t t', step s = .next t ∧ step { s with dst := m } = .next t' ∧ SameRegisters t t' ∧ SameEnvironment t t' ∧
      ∀ a, (t.dst.read a = s.dst.read a ∧ t'.dst.read a = m.read a) ∨ t.dst.read a = t'.dst.read a

/-- For every size, the beats that selection gives for FILL_BYTES are size div 8 BCHUNK and then size mod 8 BTAIL, for
FILL_LETTERS size div 12 LCHUNK and then size mod 12 LTAIL; their number is K, at most size, and less than size from
one whole chunk up. (R105, R128 and R149, which the spec marks as derived.) (Derived: 41_fill_bytes.md section 3
(R105); 42_fill_letters.md section 3 (R128); 43_command_sequencer.md section 2 (R149).) -/
def Obligations.BeatPlanOfACommand : Prop :=
  ∀ size : Nat,
    beatPlan .bytes size = List.replicate (size / 8) .bchunk ++ List.replicate (size % 8) .btail ∧
    beatPlan .letters size = List.replicate (size / 12) .lchunk ++ List.replicate (size % 12) .ltail ∧
    ∀ op, (beatPlan op size).length = stepCount op size ∧ stepCount op size ≤ size ∧
      (chunkLen op ≤ size → stepCount op size < size)

/-- For both commands, every byte order, size and seed: the new seed is lcg_next^K(seed) with K = size div chunk + size
mod chunk. (R104, R127.) -/
def Obligations.NewSeedIsTheStateAfterKSteps : Prop :=
  ∀ (order : ByteOrder) (size : Nat) (seed : Word64),
    (fill order .bytes size seed).2 = lcgIter (size / 8 + size % 8) seed ∧
    (fill order .letters size seed).2 = lcgIter (size / 12 + size % 12) seed

/-- For every size, seed and offset p, with q = size div 8 and x_k = lcg_next^k(seed): for p below 8q the byte is x_(p div
8 + 1)[8(p mod 8)+7 : 8(p mod 8)] at little and the mirrored byte at big; for p from 8q to size - 1 it is x_(q + (p -
8q) + 1)[7:0]; and there are exactly size bytes. (R106, which the spec marks as derived.) (Derived: 41_fill_bytes.md
section 3 (R106); 20_memory.md section 3 (R48).) -/
def Obligations.EveryOutputByteInClosedForm : Prop :=
  ∀ (size : Nat) (seed : Word64) (p : Nat),
    (∀ order, (fill order .bytes size seed).1.length = size) ∧
    (p < 8 * (size / 8) →
      (fill .little .bytes size seed).1[p]? = some ((lcgIter (p / 8 + 1) seed).extractLsb' (8 * (p % 8)) 8) ∧
      (fill .big .bytes size seed).1[p]? = some ((lcgIter (p / 8 + 1) seed).extractLsb' (56 - 8 * (p % 8)) 8)) ∧
    (8 * (size / 8) ≤ p → p < size → ∀ order,
      (fill order .bytes size seed).1[p]? =
        some ((lcgIter (size / 8 + (p - 8 * (size / 8)) + 1) seed).extractLsb' 0 8))

/-- For every byte order, size, seed and offset p, with q = size div 12 and x_k = lcg_next^k(seed): for p below 12q the
cell is 0x61 + (x_(p div 12 + 1)[5(p mod 12)+4 : 5(p mod 12)] mod 26); for p from 12q to size - 1 it is 0x61 + (x_(q +
(p - 12q) + 1) mod 26); and there are exactly size cells. (R128, which the spec marks as derived.) (Derived:
42_fill_letters.md section 3 (R128); 20_memory.md section 3 (R48).) -/
def Obligations.EveryOutputLetterInClosedForm : Prop :=
  ∀ (order : ByteOrder) (size : Nat) (seed : Word64) (p : Nat),
    (fill order .letters size seed).1.length = size ∧
    (p < 12 * (size / 12) →
      (fill order .letters size seed).1[p]? =
        some (BitVec.ofNat 8 (0x61 + ((lcgIter (p / 12 + 1) seed).extractLsb' (5 * (p % 12)) 5).toNat % 26))) ∧
    (12 * (size / 12) ≤ p → p < size →
      (fill order .letters size seed).1[p]? =
        some (BitVec.ofNat 8 (0x61 + (lcgIter (size / 12 + (p - 12 * (size / 12)) + 1) seed).toNat % 26)))

/-- For both commands, every byte order, every k and every seed: k commands of size 8 (bytes) or 12 (letters), each seeded
with the response of the one before, write concatenated exactly the cells of the single command of size 8k or 12k, and
the last response is the single command's. (R154.) -/
def Obligations.ChunkAlignedChainingReproduces : Prop :=
  ∀ (order : ByteOrder) (k : Nat) (seed : Word64),
    chainChunks order .bytes k seed = fill order .bytes (8 * k) seed ∧
    chainChunks order .letters k seed = fill order .letters (12 * k) seed

/-- For both commands and every n1 and n2: the beats of n1 followed by the beats of n2 are the beats of n1 + n2 exactly
when n1 mod c = 0, or n2 < c and (n1 mod c) + n2 < c; and then, for every byte order and seed, the two chained
commands write the cells of the single one and return its new seed. (R155, which the spec marks as derived.) (Derived:
43_command_sequencer.md section 3 (R155).) -/
def Obligations.GeneralSplittingLaw : Prop :=
  ∀ (op : Op) (n1 n2 : Nat),
    (beatPlan op n1 ++ beatPlan op n2 = beatPlan op (n1 + n2) ↔
      n1 % chunkLen op = 0 ∨ (n2 < chunkLen op ∧ n1 % chunkLen op + n2 < chunkLen op)) ∧
    (n1 % chunkLen op = 0 ∨ (n2 < chunkLen op ∧ n1 % chunkLen op + n2 < chunkLen op) →
      ∀ (order : ByteOrder) (seed : Word64),
        (fill order op n1 seed).1 ++ (fill order op n2 (fill order op n1 seed).2).1 =
          (fill order op (n1 + n2) seed).1 ∧
        (fill order op n2 (fill order op n1 seed).2).2 = (fill order op (n1 + n2) seed).2)

/-- For every split, if the step counts add up to the single command's then the last new seed is the single command's,
whatever the outputs; FILL_LETTERS 16 twice from 0x490C734AD1CCF6E9 ends in the seed of FILL_LETTERS 32 with different
letters; FILL_BYTES 4 then 12 differs from FILL_BYTES 16 in output and seed. (R156.) (Derived: 43_command_sequencer.md
section 3 (R156).) -/
def Obligations.EqualStepCountsGiveEqualSeeds : Prop :=
  (∀ (order : ByteOrder) (op : Op) (n1 n2 : Nat) (seed : Word64),
    stepCount op n1 + stepCount op n2 = stepCount op (n1 + n2) →
    (fill order op n2 (fill order op n1 seed).2).2 = (fill order op (n1 + n2) seed).2) ∧
  (let a := fill .little .letters 16 0x490C734AD1CCF6E9
   let b := fill .little .letters 16 a.2
   let whole := fill .little .letters 32 0x490C734AD1CCF6E9
   b.2 = whole.2 ∧ a.1 ++ b.1 ≠ whole.1) ∧
  (let a := fill .little .bytes 4 0x490C734AD1CCF6E9
   let b := fill .little .bytes 12 a.2
   let whole := fill .little .bytes 16 0x490C734AD1CCF6E9
   b.2 ≠ whole.2 ∧ a.1 ++ b.1 ≠ whole.1)

/-- The three lines of program P3, with their comments, are read as the program FILL_BYTES 10 from 1, FILL_LETTERS 14 from
its response, FILL_BYTES 0 from that response, and the program is well formed. (Derived: 30_encoding.md section 4
(R71); 95_test_vectors.md section 7.) -/
def Obligations.WrittenLinesAreRead : Prop :=
  parseProgram
      ["FILL_BYTES   10, 0x0000000000000001 -> r0    # into D1",
       "FILL_LETTERS 14, r0                 -> r1    # into D2",
       "FILL_BYTES   0,  r1                 -> r2    # into D3, which has no cells"] =
    .ok [⟨.bytes, 10, .literal 1, "r0".toList⟩, ⟨.letters, 14, .name "r0".toList, "r1".toList⟩,
         ⟨.bytes, 0, .name "r1".toList, "r2".toList⟩] ∧
  Program.wellFormed
    ([⟨.bytes, 10, .literal 1, "r0".toList⟩, ⟨.letters, 14, .name "r0".toList, "r1".toList⟩,
      ⟨.bytes, 0, .name "r1".toList, "r2".toList⟩] : Program) = true

/-- A program resolves to a list of commands, one for each line, exactly when it is well formed. (Derived: 30_encoding.md
section 4 (R71, R72).) -/
def Obligations.WellFormedProgramsHaveCommands : Prop :=
  ∀ p : Program,
    (p.wellFormed = true ↔ ∃ cs, p.commands = some cs) ∧
    (∀ cs, p.commands = some cs → cs.length = p.length ∧ cs.map Command.op = p.map Line.op ∧
      cs.map Command.size = p.map Line.size)

/-- For every program with commands cs: from every state in IDLE, given the schedule that offers each command after the
response of the one before to a willing environment, the machine comes back to IDLE at the end of the schedule having
returned, in order, the big-step new seed of every command. (Derived: 30_encoding.md section 4 (R71, R72);
43_command_sequencer.md section 2 (R147); 43_command_sequencer.md section 3 (R158).) -/
def Obligations.ProgramReturnsItsSeedsInOrder : Prop :=
  ∀ (p : Program) (cs : List Command) (s : State) (more : List Inputs),
    p.commands = some cs → s.phase = .idle → s.inputs = scheduleAll cs ++ more →
    ∃ t, Runs (scheduleAll cs).length s t ∧ t.phase = .idle ∧ t.inputs = more ∧
      t.responses = s.responses ++ cs.map fun c => c.result.2
end

