-- ==== Sys2Proof/Laws/Memory.lean ====
section
/-! SUPPORT. The destination: reading after writing, and every memory operation keeps the canonical form. -/

namespace Sys2Proof.Machine

namespace Memory

theorem read_writeCell (m : Memory) (a : Nat) (b : Byte) (x : Nat) :
    (m.writeCell a b).read x = if x = a then some b else m.read x := by
  induction m with
  | nil => simp only [writeCell, read, eq_comm (a := a)]
  | cons c m ih =>
    simp only [writeCell]
    split
    · simp only [read, eq_comm (a := a)]
    · split
      · next heq => simp only [read, heq, eq_comm (a := c.1)]; split <;> rfl
      · next hne =>
        simp only [read, ih]
        by_cases hc : c.1 = x
        · have : x ≠ a := fun h => hne (h ▸ hc.symm)
          simp [hc, this]
        · simp [hc]

@[simp] theorem read_writeCell_same (m : Memory) (a : Nat) (b : Byte) : (m.writeCell a b).read a = some b := by
  simp [read_writeCell]

theorem read_writeCell_other (m : Memory) (a : Nat) (b : Byte) (x : Nat) (h : x ≠ a) :
    (m.writeCell a b).read x = m.read x := by
  simp [read_writeCell, h]

/-- Everything a block write does to reads: the block holds the cells, everything else is as before. -/
theorem read_writeCells (bs : List Byte) (m : Memory) (a x : Nat) :
    (m.writeCells a bs).read x = if a ≤ x ∧ x < a + bs.length then bs[x - a]? else m.read x := by
  induction bs generalizing m a with
  | nil => rw [if_neg (by simp)]; rfl
  | cons b bs ih =>
    simp only [writeCells, ih, read_writeCell, List.length_cons]
    by_cases hx : x = a
    · subst hx; simp
    · by_cases hr : a + 1 ≤ x ∧ x < a + 1 + bs.length
      · have h1 : a ≤ x ∧ x < a + (bs.length + 1) := by omega
        have h2 : x - a = (x - (a + 1)) + 1 := by omega
        simp [hr, h1, h2]
      · have h1 : ¬ (a ≤ x ∧ x < a + (bs.length + 1)) := by omega
        rw [if_neg hr, if_neg hx, if_neg h1]

theorem mem_writeCell (m : Memory) (a : Nat) (b : Byte) (c : Host.Cell) (h : c ∈ m.writeCell a b) :
    c = (a, b) ∨ c ∈ m := by
  induction m with
  | nil => simpa [writeCell] using h
  | cons d m ih =>
    simp only [writeCell] at h
    split at h
    · simpa using h
    · split at h
      · rcases List.mem_cons.mp h with h | h
        · exact .inl h
        · exact .inr (List.mem_cons_of_mem _ h)
      · rcases List.mem_cons.mp h with h | h
        · exact .inr (h ▸ List.mem_cons_self)
        · exact (ih h).imp id (List.mem_cons_of_mem _)

/-- Writing one cell keeps the offsets strictly rising. -/
theorem writeCell_wf (m : Memory) (a : Nat) (b : Byte) (h : m.wf) : (m.writeCell a b).wf := by
  induction m with
  | nil => simp [writeCell, wf]
  | cons c m ih =>
    obtain ⟨hc, hm⟩ := List.pairwise_cons.mp h
    simp only [writeCell]
    split
    · next hlt =>
      refine List.pairwise_cons.mpr ⟨fun d hd => ?_, h⟩
      rcases List.mem_cons.mp hd with rfl | hd
      · exact hlt
      · exact hlt.trans (hc d hd)
    · split
      · next heq => exact List.pairwise_cons.mpr ⟨fun d hd => by simpa [heq] using hc d hd, hm⟩
      · refine List.pairwise_cons.mpr ⟨fun d hd => ?_, ih hm⟩
        rcases mem_writeCell m a b d hd with rfl | hd
        · show c.1 < a
          omega
        · exact hc d hd

theorem writeCells_wf (bs : List Byte) (m : Memory) (a : Nat) (h : m.wf) : (m.writeCells a bs).wf := by
  induction bs generalizing m a with
  | nil => exact h
  | cons b bs ih => exact ih _ _ (writeCell_wf m a b h)

theorem memWrite_wf (m : Memory) (off n : Nat) (data : BitVec 96) (h : m.wf) : (m.memWrite off n data).wf :=
  writeCells_wf _ _ _ h

theorem foldl_writeCell_wf (cells : List Host.Cell) (m : Memory) (h : m.wf) :
    Memory.wf (cells.foldl (fun m c => Memory.writeCell m c.1 c.2) m) := by
  induction cells generalizing m with
  | nil => exact h
  | cons c cells ih => exact ih _ (writeCell_wf m c.1 c.2 h)

theorem ofCells_wf (cells : List Host.Cell) : (ofCells cells).wf :=
  foldl_writeCell_wf cells [] List.Pairwise.nil

/-- Everything `MemWrite` does to reads (00_scope.md R9). -/
theorem read_memWrite (m : Memory) (off n : Nat) (data : BitVec 96) (x : Nat) :
    (m.memWrite off n data).read x =
      if off ≤ x ∧ x < off + n then some (dataCell data (x - off)) else m.read x := by
  simp only [memWrite, read_writeCells, dataCells, List.length_map, List.length_range]
  split
  · next h => simp [show x - off < n by omega]
  · rfl

end Memory

/-- The destination after reset is canonical. -/
theorem State.resetAt_dst_wf (w : Nat) : (State.resetAt w).dst.wf := List.Pairwise.nil

theorem State.bindDst_wf {w : Nat} (s : State w) (b : Option (List Host.Cell)) (h : s.dst.wf) : (s.bindDst b).dst.wf := by
  unfold State.bindDst
  split
  · exact Memory.ofCells_wf _
  · exact h

theorem State.performBeat_wf {w : Nat} (s : State w) (k : BeatKind) (h : s.dst.wf) : (s.performBeat k).dst.wf :=
  Memory.memWrite_wf _ _ _ _ h

end Sys2Proof.Machine
end

