-- ==== Sys2Proof/Laws/State.lean ====
section
/-! SUPPORT. One lemma per field and update of State, so that no later proof unfolds a record update. Each is true by
rfl; they are proved by simp so that simp rewrites with them inside the condition of an if as well. -/

namespace Sys2Proof.Machine

variable {w : Nat} (s : State w)

/-! ## stepLcg -/

@[simp] theorem State.stepLcg_phase : (s.stepLcg).phase = s.phase := by simp only [State.stepLcg]
@[simp] theorem State.stepLcg_mode : (s.stepLcg).mode = s.mode := by simp only [State.stepLcg]
@[simp] theorem State.stepLcg_S : (s.stepLcg).S = lcgNext s.S := by simp only [State.stepLcg]
@[simp] theorem State.stepLcg_rem : (s.stepLcg).rem = s.rem := by simp only [State.stepLcg]
@[simp] theorem State.stepLcg_off : (s.stepLcg).off = s.off := by simp only [State.stepLcg]
@[simp] theorem State.stepLcg_dst : (s.stepLcg).dst = s.dst := by simp only [State.stepLcg]
@[simp] theorem State.stepLcg_responses : (s.stepLcg).responses = s.responses := by simp only [State.stepLcg]
@[simp] theorem State.stepLcg_inputs : (s.stepLcg).inputs = s.inputs := by simp only [State.stepLcg]
@[simp] theorem State.stepLcg_draws : (s.stepLcg).draws = s.draws := by simp only [State.stepLcg]

/-! ## performBeat -/

@[simp] theorem State.performBeat_phase (k : BeatKind) : (s.performBeat k).phase = s.phase := by
  simp only [State.performBeat, State.stepLcg]
@[simp] theorem State.performBeat_mode (k : BeatKind) : (s.performBeat k).mode = s.mode := by
  simp only [State.performBeat, State.stepLcg]
@[simp] theorem State.performBeat_S (k : BeatKind) : (s.performBeat k).S = lcgNext s.S := by
  simp only [State.performBeat, State.stepLcg]
@[simp] theorem State.performBeat_rem (k : BeatKind) : (s.performBeat k).rem = s.rem - BitVec.ofNat w k.cells := by
  simp only [State.performBeat, State.stepLcg]
@[simp] theorem State.performBeat_off (k : BeatKind) : (s.performBeat k).off = s.off + BitVec.ofNat w k.cells := by
  simp only [State.performBeat, State.stepLcg]
@[simp] theorem State.performBeat_dst (k : BeatKind) : (s.performBeat k).dst = s.dst.memWrite s.off.toNat (s.beatOf k).n.toNat (s.beatOf k).data := by
  simp only [State.performBeat, State.stepLcg, State.beatOf]
@[simp] theorem State.performBeat_responses (k : BeatKind) : (s.performBeat k).responses = s.responses := by
  simp only [State.performBeat, State.stepLcg]
@[simp] theorem State.performBeat_inputs (k : BeatKind) : (s.performBeat k).inputs = s.inputs := by
  simp only [State.performBeat, State.stepLcg]
@[simp] theorem State.performBeat_draws (k : BeatKind) : (s.performBeat k).draws = s.draws := by
  simp only [State.performBeat, State.stepLcg]

/-! ## accept -/

@[simp] theorem State.accept_phase (op : Op) (size : Size w) (seed : Word64) : (s.accept op size seed).phase = .run := by simp only [State.accept]
@[simp] theorem State.accept_mode (op : Op) (size : Size w) (seed : Word64) : (s.accept op size seed).mode = op := by simp only [State.accept]
@[simp] theorem State.accept_S (op : Op) (size : Size w) (seed : Word64) : (s.accept op size seed).S = seed := by simp only [State.accept]
@[simp] theorem State.accept_rem (op : Op) (size : Size w) (seed : Word64) : (s.accept op size seed).rem = size := by simp only [State.accept]
@[simp] theorem State.accept_off (op : Op) (size : Size w) (seed : Word64) : (s.accept op size seed).off = 0 := by simp only [State.accept]
@[simp] theorem State.accept_dst (op : Op) (size : Size w) (seed : Word64) : (s.accept op size seed).dst = s.dst := by simp only [State.accept]
@[simp] theorem State.accept_responses (op : Op) (size : Size w) (seed : Word64) : (s.accept op size seed).responses = s.responses := by simp only [State.accept]
@[simp] theorem State.accept_inputs (op : Op) (size : Size w) (seed : Word64) : (s.accept op size seed).inputs = s.inputs := by simp only [State.accept]
@[simp] theorem State.accept_draws (op : Op) (size : Size w) (seed : Word64) : (s.accept op size seed).draws = s.draws := by simp only [State.accept]

/-! ## endBeats -/

@[simp] theorem State.endBeats_phase : (s.endBeats).phase = .resp := by simp only [State.endBeats]
@[simp] theorem State.endBeats_mode : (s.endBeats).mode = s.mode := by simp only [State.endBeats]
@[simp] theorem State.endBeats_S : (s.endBeats).S = s.S := by simp only [State.endBeats]
@[simp] theorem State.endBeats_rem : (s.endBeats).rem = s.rem := by simp only [State.endBeats]
@[simp] theorem State.endBeats_off : (s.endBeats).off = s.off := by simp only [State.endBeats]
@[simp] theorem State.endBeats_dst : (s.endBeats).dst = s.dst := by simp only [State.endBeats]
@[simp] theorem State.endBeats_responses : (s.endBeats).responses = s.responses := by simp only [State.endBeats]
@[simp] theorem State.endBeats_inputs : (s.endBeats).inputs = s.inputs := by simp only [State.endBeats]
@[simp] theorem State.endBeats_draws : (s.endBeats).draws = s.draws := by simp only [State.endBeats]

/-! ## respond -/

@[simp] theorem State.respond_phase : (s.respond).phase = .idle := by simp only [State.respond, rspWord]
@[simp] theorem State.respond_mode : (s.respond).mode = s.mode := by simp only [State.respond, rspWord]
@[simp] theorem State.respond_S : (s.respond).S = s.S := by simp only [State.respond, rspWord]
@[simp] theorem State.respond_rem : (s.respond).rem = s.rem := by simp only [State.respond, rspWord]
@[simp] theorem State.respond_off : (s.respond).off = s.off := by simp only [State.respond, rspWord]
@[simp] theorem State.respond_dst : (s.respond).dst = s.dst := by simp only [State.respond, rspWord]
@[simp] theorem State.respond_responses : (s.respond).responses = s.responses ++ [s.S] := by simp only [State.respond, rspWord]
@[simp] theorem State.respond_inputs : (s.respond).inputs = s.inputs := by simp only [State.respond, rspWord]
@[simp] theorem State.respond_draws : (s.respond).draws = s.draws := by simp only [State.respond, rspWord]

/-! ## applyReset -/

@[simp] theorem State.applyReset_phase (freeS : Word64) : (s.applyReset freeS).phase = .idle := by simp only [State.applyReset]
@[simp] theorem State.applyReset_mode (freeS : Word64) : (s.applyReset freeS).mode = .bytes := by simp only [State.applyReset]
@[simp] theorem State.applyReset_S (freeS : Word64) : (s.applyReset freeS).S = freeS := by simp only [State.applyReset]
@[simp] theorem State.applyReset_rem (freeS : Word64) : (s.applyReset freeS).rem = 0 := by simp only [State.applyReset]
@[simp] theorem State.applyReset_off (freeS : Word64) : (s.applyReset freeS).off = 0 := by simp only [State.applyReset]
@[simp] theorem State.applyReset_dst (freeS : Word64) : (s.applyReset freeS).dst = s.dst := by simp only [State.applyReset]
@[simp] theorem State.applyReset_responses (freeS : Word64) : (s.applyReset freeS).responses = s.responses := by simp only [State.applyReset]
@[simp] theorem State.applyReset_inputs (freeS : Word64) : (s.applyReset freeS).inputs = s.inputs := by simp only [State.applyReset]
@[simp] theorem State.applyReset_draws (freeS : Word64) : (s.applyReset freeS).draws = s.draws := by simp only [State.applyReset]

/-! ## advance -/

@[simp] theorem State.advance_phase : (s.advance).phase = s.phase := by simp only [State.advance]
@[simp] theorem State.advance_mode : (s.advance).mode = s.mode := by simp only [State.advance]
@[simp] theorem State.advance_S : (s.advance).S = s.S := by simp only [State.advance]
@[simp] theorem State.advance_rem : (s.advance).rem = s.rem := by simp only [State.advance]
@[simp] theorem State.advance_off : (s.advance).off = s.off := by simp only [State.advance]
@[simp] theorem State.advance_dst : (s.advance).dst = s.dst := by simp only [State.advance]
@[simp] theorem State.advance_responses : (s.advance).responses = s.responses := by simp only [State.advance]
@[simp] theorem State.advance_inputs : (s.advance).inputs = s.inputs.tail := by simp only [State.advance]
@[simp] theorem State.advance_draws : (s.advance).draws = s.draws + 1 := by simp only [State.advance]

/-! ## bindDst: the destination only, and that only in IDLE -/

@[simp] theorem State.bindDst_phase (b : Option (List Host.Cell)) : (s.bindDst b).phase = s.phase := by
  unfold State.bindDst; split <;> rfl
@[simp] theorem State.bindDst_mode (b : Option (List Host.Cell)) : (s.bindDst b).mode = s.mode := by
  unfold State.bindDst; split <;> rfl
@[simp] theorem State.bindDst_S (b : Option (List Host.Cell)) : (s.bindDst b).S = s.S := by
  unfold State.bindDst; split <;> rfl
@[simp] theorem State.bindDst_rem (b : Option (List Host.Cell)) : (s.bindDst b).rem = s.rem := by
  unfold State.bindDst; split <;> rfl
@[simp] theorem State.bindDst_off (b : Option (List Host.Cell)) : (s.bindDst b).off = s.off := by
  unfold State.bindDst; split <;> rfl
@[simp] theorem State.bindDst_responses (b : Option (List Host.Cell)) : (s.bindDst b).responses = s.responses := by
  unfold State.bindDst; split <;> rfl
@[simp] theorem State.bindDst_inputs (b : Option (List Host.Cell)) : (s.bindDst b).inputs = s.inputs := by
  unfold State.bindDst; split <;> rfl
@[simp] theorem State.bindDst_draws (b : Option (List Host.Cell)) : (s.bindDst b).draws = s.draws := by
  unfold State.bindDst; split <;> rfl

theorem State.bindDst_idle (cells : List Host.Cell) (h : s.phase = .idle) :
    (s.bindDst (some cells)).dst = Memory.ofCells cells := by
  simp [State.bindDst, h]

@[simp] theorem State.bindDst_none : s.bindDst none = s := by
  unfold State.bindDst; split <;> simp_all

theorem State.bindDst_busy (b : Option (List Host.Cell)) (h : s.phase ≠ .idle) : s.bindDst b = s := by
  unfold State.bindDst; split <;> simp_all

/-! ## taking, sampled, resetStep, withOffer -/

@[simp] theorem State.taking_phase (p : Inputs w) : (s.taking p).phase = s.phase := by
  simp [State.taking]
@[simp] theorem State.taking_mode (p : Inputs w) : (s.taking p).mode = s.mode := by
  simp [State.taking]
@[simp] theorem State.taking_S (p : Inputs w) : (s.taking p).S = s.S := by
  simp [State.taking]
@[simp] theorem State.taking_rem (p : Inputs w) : (s.taking p).rem = s.rem := by
  simp [State.taking]
@[simp] theorem State.taking_off (p : Inputs w) : (s.taking p).off = s.off := by
  simp [State.taking]
@[simp] theorem State.taking_responses (p : Inputs w) : (s.taking p).responses = s.responses := by
  simp [State.taking]
@[simp] theorem State.taking_inputs (p : Inputs w) : (s.taking p).inputs = s.inputs.tail := by
  simp [State.taking]
@[simp] theorem State.taking_draws (p : Inputs w) : (s.taking p).draws = s.draws + 1 := by
  simp [State.taking]

theorem State.taking_busy (p : Inputs w) (h : s.phase ≠ .idle) : s.taking p = s.advance :=
  State.bindDst_busy _ _ h

@[simp] theorem State.sampled_phase : s.sampled.phase = s.phase := by
  simp [State.sampled]
@[simp] theorem State.sampled_mode : s.sampled.mode = s.mode := by
  simp [State.sampled]
@[simp] theorem State.sampled_S : s.sampled.S = s.S := by
  simp [State.sampled]
@[simp] theorem State.sampled_rem : s.sampled.rem = s.rem := by
  simp [State.sampled]
@[simp] theorem State.sampled_off : s.sampled.off = s.off := by
  simp [State.sampled]
@[simp] theorem State.sampled_responses : s.sampled.responses = s.responses := by
  simp [State.sampled]
@[simp] theorem State.sampled_inputs : s.sampled.inputs = s.inputs.tail := by
  simp [State.sampled]
@[simp] theorem State.sampled_draws : s.sampled.draws = s.draws + 1 := by
  simp [State.sampled]

theorem State.sampled_busy (h : s.phase ≠ .idle) : s.sampled = s.advance :=
  s.taking_busy _ h

theorem State.sample_cons (p : Inputs w) (rest : List (Inputs w)) (h : s.inputs = p :: rest) : s.sample = p := by
  simp [State.sample, h]

@[simp] theorem resetStep_phase : (resetStep s).phase = .idle := by
  simp only [resetStep, State.applyReset, State.advance]
@[simp] theorem resetStep_mode : (resetStep s).mode = .bytes := by
  simp only [resetStep, State.applyReset, State.advance]
@[simp] theorem resetStep_S : (resetStep s).S = Config.freeS s.draws := by
  simp only [resetStep, State.applyReset, State.advance]
@[simp] theorem resetStep_rem : (resetStep s).rem = 0 := by
  simp only [resetStep, State.applyReset, State.advance]
@[simp] theorem resetStep_off : (resetStep s).off = 0 := by
  simp only [resetStep, State.applyReset, State.advance]
@[simp] theorem resetStep_dst : (resetStep s).dst = s.dst := by
  simp only [resetStep, State.applyReset, State.advance]
@[simp] theorem resetStep_responses : (resetStep s).responses = s.responses := by
  simp only [resetStep, State.applyReset, State.advance]
@[simp] theorem resetStep_inputs : (resetStep s).inputs = s.inputs.tail := by
  simp only [resetStep, State.applyReset, State.advance]
@[simp] theorem resetStep_draws : (resetStep s).draws = s.draws + 1 := by
  simp only [resetStep, State.applyReset, State.advance]

@[simp] theorem State.withOffer_phase (x : CmdWord w) : (s.withOffer x).phase = .idle := by
  simp only [State.withOffer]
@[simp] theorem State.withOffer_mode (x : CmdWord w) : (s.withOffer x).mode = s.mode := by
  simp only [State.withOffer]
@[simp] theorem State.withOffer_S (x : CmdWord w) : (s.withOffer x).S = s.S := by
  simp only [State.withOffer]
@[simp] theorem State.withOffer_rem (x : CmdWord w) : (s.withOffer x).rem = s.rem := by
  simp only [State.withOffer]
@[simp] theorem State.withOffer_off (x : CmdWord w) : (s.withOffer x).off = s.off := by
  simp only [State.withOffer]
@[simp] theorem State.withOffer_dst (x : CmdWord w) : (s.withOffer x).dst = s.dst := by
  simp only [State.withOffer]
@[simp] theorem State.withOffer_responses (x : CmdWord w) : (s.withOffer x).responses = s.responses := by
  simp only [State.withOffer]
@[simp] theorem State.withOffer_inputs (x : CmdWord w) : (s.withOffer x).inputs = Inputs.offer x :: s.inputs := by
  simp only [State.withOffer]
@[simp] theorem State.withOffer_draws (x : CmdWord w) : (s.withOffer x).draws = s.draws := by
  simp only [State.withOffer]

@[simp] theorem State.withOffer_sample (x : CmdWord w) : (s.withOffer x).sample = Inputs.offer x := rfl

/-! ## Observed signals depend on the registers alone -/

@[simp] theorem State.advance_selected : s.advance.selected = s.selected := rfl

@[simp] theorem State.advance_beatOf (k : BeatKind) : s.advance.beatOf k = s.beatOf k := rfl

@[simp] theorem State.advance_out : s.advance.out = s.out := rfl

@[simp] theorem State.advance_rsp : s.advance.rsp = s.rsp := rfl

@[simp] theorem State.beatOf_off (k : BeatKind) : (s.beatOf k).off = s.off := by
  simp only [State.beatOf]

@[simp] theorem State.beatOf_data (k : BeatKind) :
    (s.beatOf k).data = dataOf Config.byteOrder k (lcgNext s.S) := by
  simp only [State.beatOf]

@[simp] theorem State.beatOf_n (k : BeatKind) : (s.beatOf k).n.toNat = k.cells := by
  cases k <;> rfl

end Sys2Proof.Machine
end

