-- ==== Sys2Proof/Laws/Ops.lean ====
section
/-! SUPPORT. One lemma for each shared operation that says once what it can do. -/

namespace Sys2Proof.Machine

/-! ## The LCG step -/

theorem lcgNext_toNat (s : Word64) : (lcgNext s).toNat = (s.toNat * 1664525 + 1013904223) % 2 ^ 64 := by
  simp [lcgNext, Config.A, Config.C, Nat.add_comm, Nat.mul_comm]

/-- The step in the ring of 64-bit words. -/
theorem lcgNext_eq (s : Word64) : lcgNext s = s * 1664525#64 + 1013904223#64 := by
  apply BitVec.eq_of_toNat_eq
  rw [lcgNext_toNat, BitVec.toNat_add, BitVec.toNat_mul]
  simp [Nat.add_mod, Nat.mul_mod]

@[simp] theorem lcgIter_zero (s : Word64) : lcgIter 0 s = s := rfl

@[simp] theorem lcgIter_succ (k : Nat) (s : Word64) : lcgIter (k + 1) s = lcgNext (lcgIter k s) := rfl

theorem lcgIter_next (k : Nat) (s : Word64) : lcgIter k (lcgNext s) = lcgNext (lcgIter k s) := by
  induction k with
  | zero => rfl
  | succ k ih => simp [ih]

theorem lcgIter_add (j k : Nat) (s : Word64) : lcgIter (j + k) s = lcgIter j (lcgIter k s) := by
  induction j with
  | zero => simp
  | succ j ih => rw [Nat.succ_add]; simp [ih]

/-! ## Numbers -/

@[simp] theorem chunkLen_bytes : chunkLen .bytes = 8 := by simp only [chunkLen]

@[simp] theorem chunkLen_letters : chunkLen .letters = 12 := by simp only [chunkLen]

theorem chunkLen_pos (op : Op) : 0 < chunkLen op := by
  cases op <;> decide

theorem Size.toNat_lt {w : Nat} (x : Size w) : x.toNat < 2 ^ w :=
  x.isLt

@[simp] theorem BeatKind.cells_bchunk : BeatKind.bchunk.cells = 8 := by simp only [BeatKind.cells]

@[simp] theorem BeatKind.cells_btail : BeatKind.btail.cells = 1 := by simp only [BeatKind.cells]

@[simp] theorem BeatKind.cells_lchunk : BeatKind.lchunk.cells = 12 := by simp only [BeatKind.cells]

@[simp] theorem BeatKind.cells_ltail : BeatKind.ltail.cells = 1 := by simp only [BeatKind.cells]

variable {w : Nat}

/-! ## Beat selection: everything a selected beat tells -/

theorem beatFor_eq_none (op : Op) (n : Nat) : beatFor op n = none ↔ n = 0 := by
  cases op <;> simp only [beatFor, Config.BCH, Config.LCH] <;> split <;> (try split) <;>
    simp only [reduceCtorEq, false_iff, true_iff] <;> omega

theorem beatFor_cells {op : Op} {n : Nat} {k : BeatKind} (h : beatFor op n = some k) : 1 ≤ k.cells ∧ k.cells ≤ n := by
  cases op <;> simp only [beatFor, Config.BCH, Config.LCH] at h <;> split at h <;> (try split at h) <;>
    cases h <;> simp only [BeatKind.cells, Config.BCH, Config.LCH] <;> omega

theorem selected_some {s : State w} {k : BeatKind} (h : s.selected = some k) :
    s.phase = .run ∧ selectBeat s.mode s.rem = some k := by
  unfold State.selected at h
  split at h <;> simp_all

theorem selected_of_run {s : State w} (h : s.phase = .run) : s.selected = selectBeat s.mode s.rem := by
  simp [State.selected, h]

/-- A selected beat's cells fit what remains, so `REM` does not underflow. -/
theorem selected_rem {s : State w} {k : BeatKind} (h : s.selected = some k) :
    (s.performBeat k).rem.toNat = s.rem.toNat - k.cells ∧ k.cells ≤ s.rem.toNat ∧ 1 ≤ k.cells := by
  have hc := beatFor_cells (selected_some h).2
  have hk : k.cells < 2 ^ w := by have := s.rem.isLt; omega
  refine ⟨?_, hc.2, hc.1⟩
  rw [State.performBeat_rem, BitVec.toNat_sub_of_le, BitVec.toNat_ofNat, Nat.mod_eq_of_lt hk]
  rw [BitVec.le_def, BitVec.toNat_ofNat, Nat.mod_eq_of_lt hk]
  exact hc.2

theorem performBeat_off {s : State w} (k : BeatKind) (h : s.off.toNat + k.cells < 2 ^ w) :
    (s.performBeat k).off.toNat = s.off.toNat + k.cells := by
  rw [State.performBeat_off, BitVec.toNat_add, BitVec.toNat_ofNat]
  rw [Nat.mod_eq_of_lt (show k.cells < 2 ^ w by omega), Nat.mod_eq_of_lt h]

/-- Everything a beat does to the destination: its cells at `OFF`, every other cell as before. -/
theorem performBeat_read (s : State w) (k : BeatKind) (x : Nat) :
    (s.performBeat k).dst.read x =
      if s.off.toNat ≤ x ∧ x < s.off.toNat + k.cells then
        some (dataCell (dataOf Config.byteOrder k (lcgNext s.S)) (x - s.off.toNat))
      else s.dst.read x := by
  rw [State.performBeat_dst, Memory.read_memWrite, State.beatOf_n, State.beatOf_data]

/-! ## The shared operations behind the arms of exec -/

theorem runBeat_selected {s : State w} {k : BeatKind} (h : s.selected = some k) : s.runBeat k = s.performBeat k := by
  simp [State.runBeat, h]

theorem runBeat_unselected {s : State w} {k : BeatKind} (h : s.selected ≠ some k) : s.runBeat k = s := by
  simp [State.runBeat, h]

theorem takeCommand_idle {s : State w} (op : Op) (size : Size w) (seed : Word64) (h : s.phase = .idle) :
    s.takeCommand op size seed = s.accept op size seed := by
  simp [State.takeCommand, h]

theorem takeCommand_busy {s : State w} (op : Op) (size : Size w) (seed : Word64) (h : s.phase ≠ .idle) :
    s.takeCommand op size seed = s := by
  simp [State.takeCommand, h]

@[simp] theorem exec_beat (k : BeatKind) (s : State) : exec k.instr s = .next (s.runBeat k) := by
  cases k <;> rfl

theorem exec_command (c : Command) (s : State) : exec c.instr s = .next (s.takeCommand c.op c.size c.seed) := by
  obtain ⟨op, size, seed⟩ := c
  cases op <;> rfl

/-- exec of what fires is its effect. -/
theorem exec_fire (f : Firing) (s : State) : exec f.instr s = .next (s.fire f) := by
  cases f with
  | command c => exact exec_command c s
  | beat k => exact exec_beat k s

/-! ## The step: its cases, once -/

/-- What one step does, by the reset input, the phase and the signals the environment drives. -/
theorem stepUnder_cases (p : Inputs w) (s : State w) :
    (p.reset = true ∧ stepUnder p s = resetStep s) ∨
    (p.reset = false ∧
      ((∃ x, s.phase = .idle ∧ p.cmd = some x ∧
          stepUnder p s = (s.taking p).accept (commandOf x).op (commandOf x).size (commandOf x).seed) ∨
       (s.phase = .idle ∧ p.cmd = none ∧ stepUnder p s = s.taking p) ∨
       (∃ k, s.phase = .run ∧ s.selected = some k ∧ p.outReady = true ∧ stepUnder p s = s.advance.performBeat k) ∨
       (∃ k, s.phase = .run ∧ s.selected = some k ∧ p.outReady = false ∧ stepUnder p s = s.advance) ∨
       (s.phase = .run ∧ s.rem = 0 ∧ stepUnder p s = s.advance.endBeats) ∨
       (s.phase = .resp ∧ p.rspReady = true ∧ stepUnder p s = s.advance.respond) ∨
       (s.phase = .resp ∧ p.rspReady = false ∧ stepUnder p s = s.advance))) := by
  by_cases hr : p.reset = true
  · exact .inl ⟨hr, by simp [stepUnder, hr]⟩
  · refine .inr ⟨by simpa using hr, ?_⟩
    rcases hp : s.phase with _ | _ | _
    · rcases hc : p.cmd with _ | x
      · exact .inr (.inl ⟨rfl, rfl, by simp [stepUnder, hr, fetch, hp, hc, betweenOps]⟩)
      · refine .inl ⟨x, rfl, rfl, ?_⟩
        simp only [stepUnder, hr, fetch, State.taking_phase, hp, hc, Option.map_some, State.fire]
        exact takeCommand_idle _ _ _ (by simpa using hp)
    · have hb : s.taking p = s.advance := s.taking_busy p (by simp [hp])
      rcases hsel : s.selected with _ | k
      · have h0 : s.rem = 0 := by
          have h := selected_of_run hp
          rw [hsel] at h
          exact BitVec.eq_of_toNat_eq (by simpa using (beatFor_eq_none _ _).mp h.symm)
        refine .inr (.inr (.inr (.inr (.inl ⟨rfl, h0, ?_⟩))))
        have hn : selectBeat s.mode s.rem = none := by rw [← selected_of_run hp, hsel]
        simp only [stepUnder, hr, fetch, hb, State.advance_phase, State.advance_mode, State.advance_rem, hp, hn, betweenOps]
        simp [h0]
      · have hs : selectBeat s.mode s.rem = some k := (selected_some hsel).2
        have hne : s.rem ≠ 0 := by
          intro h
          have := (selected_rem hsel).2
          simp [h] at this
          omega
        rcases ho : p.outReady with _ | _
        · exact .inr (.inr (.inr (.inl ⟨k, rfl, rfl, rfl, by
              simp only [stepUnder, hr, fetch, hb, State.advance_phase, State.advance_rem, hp, ho, betweenOps, hne]
              simp⟩)))
        · have hrun : s.advance.runBeat k = s.advance.performBeat k := runBeat_selected (by simpa using hsel)
          exact .inr (.inr (.inl ⟨k, rfl, rfl, rfl, by simp [stepUnder, hr, fetch, hp, hb, ho, hs, State.fire, hrun]⟩))
    · have hb : s.taking p = s.advance := s.taking_busy p (by simp [hp])
      rcases ho : p.rspReady with _ | _
      · exact .inr (.inr (.inr (.inr (.inr (.inr ⟨rfl, rfl, by simp [stepUnder, hr, fetch, hp, hb, ho, betweenOps]⟩)))))
      · exact .inr (.inr (.inr (.inr (.inr (.inl ⟨rfl, rfl, by simp [stepUnder, hr, fetch, hp, hb, ho, betweenOps]⟩)))))

/-- What one step does, at the default width, by the reset input, the phase and the environment's signals. -/
theorem step_cases (s : State) :
    (s.sample.reset = true ∧ step s = .next (resetStep s)) ∨
    (s.sample.reset = false ∧
      ((∃ w, s.phase = .idle ∧ s.sample.cmd = some w ∧ step s = exec (decodeCmd w) s.sampled) ∨
       (s.phase = .idle ∧ s.sample.cmd = none ∧ step s = .next s.sampled) ∨
       (∃ k, s.phase = .run ∧ s.selected = some k ∧ s.sample.outReady = true ∧ step s = .next (s.advance.performBeat k)) ∨
       (∃ k, s.phase = .run ∧ s.selected = some k ∧ s.sample.outReady = false ∧ step s = .next s.advance) ∨
       (s.phase = .run ∧ s.rem = 0 ∧ step s = .next s.advance.endBeats) ∨
       (s.phase = .resp ∧ s.sample.rspReady = true ∧ step s = .next s.advance.respond) ∨
       (s.phase = .resp ∧ s.sample.rspReady = false ∧ step s = .next s.advance))) := by
  have h : step s = .next (stepUnder s.sample s) := by
    by_cases hr : s.sample.reset = true
    · simp [step, stepUnder, hr]
    · rcases hf : fetch (s.taking s.sample) s.sample with _ | f <;>
        simp [step, stepUnder, State.sampled, hr, hf, exec_fire]
  rw [h]
  rcases stepUnder_cases s.sample s with ⟨hr, h⟩ | ⟨hr, ⟨x, hp, hc, h⟩ | ⟨hp, hc, h⟩ | h | h | h | h | h⟩
  · exact .inl ⟨hr, congrArg _ h⟩
  · refine .inr ⟨hr, .inl ⟨x, hp, hc, ?_⟩⟩
    rw [h, decodeCmd, exec_command, takeCommand_idle _ _ _ (by simpa using hp)]
    rfl
  · exact .inr ⟨hr, .inr (.inl ⟨hp, hc, congrArg _ h⟩)⟩
  all_goals simp [*]

/-- The course of a machine, step by step. -/
@[simp] theorem course_zero (env : Nat → Inputs w) (s : State w) : course env s 0 = s := rfl

theorem course_succ (env : Nat → Inputs w) (s : State w) (n : Nat) :
    course env s (n + 1) = stepUnder (env n) (course env s n) := rfl

/-! ## Runs of the machine -/

theorem runs_zero (s : State) : Runs 0 s s := rfl

theorem runs_succ {n : Nat} {s t u : State} (h : step s = .next t) (hr : Runs n t u) : Runs (n + 1) s u := by
  simp only [Runs] at *
  simpa [Host.Core.run, sys2_step, h] using hr
where
  sys2_step : Sys2Proof.core.step = step := rfl

end Sys2Proof.Machine
end

