-- ==== Sys2Proof/Laws/Fill.lean ====
section
/-! SUPPORT. The big-step layer: the equations of `fill`, `beatPlan` and `stepCount` for a chunk and for a tail element,
the induction that follows the two loops, and the cells of a beat. -/

namespace Sys2Proof.Machine

/-! ## The two kinds of beat of a command -/

@[simp] theorem chunkBeat_cells (op : Op) : (chunkBeat op).cells = chunkLen op := by
  cases op <;> rfl

@[simp] theorem tailBeat_cells (op : Op) : (tailBeat op).cells = 1 := by
  cases op <;> rfl

theorem beatFor_chunk {op : Op} {n : Nat} (h : chunkLen op ≤ n) : beatFor op n = some (chunkBeat op) := by
  cases op <;> simp only [chunkLen] at h <;> simp only [beatFor, h, if_true, chunkBeat]

theorem beatFor_tail {op : Op} {n : Nat} (h : n + 1 < chunkLen op) : beatFor op (n + 1) = some (tailBeat op) := by
  cases op <;> simp only [chunkLen] at h <;> simp [beatFor, tailBeat] <;> simpa using h

/-- Induction along the loops of a command: whole chunks come off while they fit, then single elements. -/
theorem chunk_tail_induction {P : Nat → Prop} (op : Op) (zero : P 0)
    (chunk : ∀ n, chunkLen op ≤ n → P (n - chunkLen op) → P n)
    (tail : ∀ n, n + 1 < chunkLen op → P n → P (n + 1)) : ∀ n, P n := by
  intro n
  induction n using Nat.strong_induction_on with
  | _ n ih =>
    have := chunkLen_pos op
    by_cases h : chunkLen op ≤ n
    · exact chunk n h (ih _ (by omega))
    · cases n with
      | zero => exact zero
      | succ n => exact tail n (by omega) (ih n (by omega))

/-! ## fill -/

/-- The rounds allowed do not matter once they suffice. -/
theorem fillLoop_fuel (order : ByteOrder) (op : Op) (fuel left : Nat) (s : Word64) (h : left ≤ fuel) :
    fillLoop order op fuel left s = fillLoop order op left left s := by
  induction fuel using Nat.strong_induction_on generalizing left s with
  | _ f ih =>
    have hc := chunkLen_pos op
    rcases f with _ | f
    · obtain rfl : left = 0 := by omega
      rfl
    · rcases left with _ | l
      · simp [fillLoop]; omega
      · simp only [fillLoop]
        split
        · rw [ih f (by omega) _ _ (by omega)]
          by_cases hl : l = f
          · subst hl; rw [ih l (by omega) (l + 1 - chunkLen op) _ (by omega)]
          · rw [ih l (by omega) (l + 1 - chunkLen op) _ (by omega)]
        · simp only [show 1 ≤ l + 1 by omega, if_true, Nat.add_sub_cancel]
          rw [ih f (by omega) _ _ (by omega)]

theorem fill_chunk {op : Op} {n : Nat} (order : ByteOrder) (s : Word64) (h : chunkLen op ≤ n) :
    fill order op n s =
      (mainCells order op (lcgNext s) ++ (fill order op (n - chunkLen op) (lcgNext s)).1,
        (fill order op (n - chunkLen op) (lcgNext s)).2) := by
  have hc := chunkLen_pos op
  obtain ⟨m, rfl⟩ : ∃ m, n = m + 1 := ⟨n - 1, by omega⟩
  simp only [fill, fillLoop, h, if_true]
  rw [fillLoop_fuel _ _ m _ _ (by omega)]

theorem fill_tail {op : Op} {n : Nat} (order : ByteOrder) (s : Word64) (h : n + 1 < chunkLen op) :
    fill order op (n + 1) s =
      (tailCell op (lcgNext s) :: (fill order op n (lcgNext s)).1, (fill order op n (lcgNext s)).2) := by
  simp only [fill, fillLoop, if_neg (show ¬ chunkLen op ≤ n + 1 by omega)]
  simp

@[simp] theorem mainCells_length (order : ByteOrder) (op : Op) (s : Word64) :
    (mainCells order op s).length = chunkLen op := by
  cases op <;> cases order <;> simp [mainCells]

/-! ## beatPlan and stepCount -/

theorem beatPlanLoop_fuel (op : Op) (fuel left : Nat) (h : left ≤ fuel) :
    beatPlanLoop op fuel left = beatPlanLoop op left left := by
  induction fuel using Nat.strong_induction_on generalizing left with
  | _ f ih =>
    rcases f with _ | f
    · obtain rfl : left = 0 := by omega
      rfl
    · rcases left with _ | l
      · simp [beatPlanLoop, (beatFor_eq_none op 0).mpr rfl]
      · simp only [beatPlanLoop]
        rcases hb : beatFor op (l + 1) with _ | k
        · rfl
        · have := beatFor_cells hb
          simp only
          rw [ih f (by omega) _ (by omega)]
          by_cases hl : l = f
          · subst hl; rw [ih l (by omega) _ (by omega)]
          · rw [ih l (by omega) _ (by omega)]

theorem beatPlan_chunk {op : Op} {n : Nat} (h : chunkLen op ≤ n) :
    beatPlan op n = chunkBeat op :: beatPlan op (n - chunkLen op) := by
  have := chunkLen_pos op
  obtain ⟨m, rfl⟩ : ∃ m, n = m + 1 := ⟨n - 1, by omega⟩
  simp only [beatPlan, beatPlanLoop, beatFor_chunk h, chunkBeat_cells]
  rw [beatPlanLoop_fuel _ m _ (by omega)]

theorem beatPlan_tail {op : Op} {n : Nat} (h : n + 1 < chunkLen op) :
    beatPlan op (n + 1) = tailBeat op :: beatPlan op n := by
  simp only [beatPlan, beatPlanLoop, beatFor_tail h, tailBeat_cells]
  rfl

theorem stepCount_chunk {op : Op} {n : Nat} (h : chunkLen op ≤ n) :
    stepCount op n = stepCount op (n - chunkLen op) + 1 := by
  simp only [stepCount, Nat.div_eq_sub_div (chunkLen_pos op) h, Nat.mod_eq_sub_mod h]
  omega

theorem stepCount_tail {op : Op} {n : Nat} (h : n + 1 < chunkLen op) :
    stepCount op (n + 1) = stepCount op n + 1 := by
  have hn : n < chunkLen op := by omega
  simp only [stepCount, Nat.div_eq_of_lt h, Nat.mod_eq_of_lt h, Nat.div_eq_of_lt hn, Nat.mod_eq_of_lt hn]
  omega

/-! ## The cells of a beat -/

/-- A cell below the width of a value that was widened to `DATA`. -/
theorem dataCell_setWidth {w : Nat} (v : BitVec w) (j : Nat) (hw : w ≤ 96) (h : 8 * j + 8 ≤ w) :
    dataCell (v.setWidth 96) j = v.extractLsb' (8 * j) 8 := by
  apply BitVec.eq_of_getLsbD_eq
  intro i hi
  simp only [dataCell, BitVec.getLsbD_extractLsb', BitVec.getLsbD_setWidth]
  simp [hi]
  omega

/-- A lane of an LCHUNK beat. -/
theorem dataCell_lchunk (v : Word64) (i : Nat) (h : i < 12) : dataCell (lchunk v) i = lane v i := by
  have key : ∀ l : Nat → Byte,
      dataCell (l 11 ++ l 10 ++ l 9 ++ l 8 ++ l 7 ++ l 6 ++ l 5 ++ l 4 ++ l 3 ++ l 2 ++ l 1 ++ l 0) i = l i := by
    intro l
    apply BitVec.eq_of_getLsbD_eq
    intro b hb
    simp only [dataCell, BitVec.getLsbD_extractLsb', BitVec.getLsbD_append]
    interval_cases i <;> interval_cases b <;> simp
  exact key (lane v)

/-- The one cell of a tail beat, as the big-step layer has it. -/
theorem tailCell_eq_dataCell (order : ByteOrder) (op : Op) (v : Word64) :
    tailCell op v = dataCell (dataOf order (tailBeat op) v) 0 := by
  cases op <;> simp only [tailBeat, dataOf] <;> rw [dataCell_setWidth _ 0 (by decide) (by omega)] <;>
    apply BitVec.eq_of_toNat_eq <;> simp [tailCell, btail, ltail, letterOfValue, letterCode]

end Sys2Proof.Machine
end

