-- ==== Sys2Proof/Laws/PerInstr.lean ====
section
/-! SUPPORT. A statement about every instruction as syntax, one lemma per constructor. -/

namespace Sys2Proof.Laws.HasWord

/-- An instruction is well formed exactly when it has a word (30_encoding.md R68, R70). -/
def Statement (i : Instr) : Prop :=
  (encode i).isSome = i.wellFormed

theorem fillBytes (size : Size) (seed : Word64) : Statement (.fillBytes size seed) := rfl

theorem fillLetters (size : Size) (seed : Word64) : Statement (.fillLetters size seed) := rfl

theorem step : Statement .step := rfl

theorem bchunk : Statement .bchunk := rfl

theorem btail : Statement .btail := rfl

theorem lchunk : Statement .lchunk := rfl

theorem ltail : Statement .ltail := rfl

end Sys2Proof.Laws.HasWord
end

