-- ==== Sys2Proof/Tests/Slice0.lean ====
section
/-! SUPPORT. Tests. Expected values are the spec's own: its worked examples, its word layouts written out, and the vectors
of 95_test_vectors.md (V and P numbers). The theorems `test_hyp_...` show for each obligation with hypotheses a concrete
case that meets all of them together. -/

open Sys2Proof Sys2Proof.Machine

namespace Sys2Proof.Tests

/-! ## Helpers -/

/-- A state with the five registers given, nothing in the destination, and the given samples to come. -/
def st (phase : Phase) (mode : Op) (S : Word64) (rem off : Size) (inputs : List Inputs) : State :=
  { phase := phase, mode := mode, S := S, rem := rem, off := off, dst := [], responses := [], inputs := inputs, draws := 0 }

/-- A moment at which nobody takes anything. -/
def stalled : Inputs :=
  { reset := false, cmd := none, outReady := false, rspReady := false, bind := none }

/-- A moment at which the reset input is asserted, while everything else is offered and taken. -/
def resetting (w : CmdWord) : Inputs :=
  { reset := true, cmd := some w, outReady := true, rspReady := true, bind := none }

/-- The next state of an outcome, `none` when it is none. -/
def nextOf : Host.Outcome State Fault Refusal → Option State
  | .next t => some t
  | .fault _ => none
  | .refused _ => none

/-- The five registers. -/
def registers {w : Nat} (s : State w) : Phase × Op × Word64 × Size w × Size w :=
  (s.phase, s.mode, s.S, s.rem, s.off)

/-- Cells from text or bytes at offset 0. -/
def cellsAt (a : Nat) (bs : List Byte) : Memory :=
  (List.range bs.length).zip bs |>.map fun c => (a + c.1, c.2)

/-- The ASCII codes of a text. -/
def codes (text : String) : List Byte :=
  text.toList.map fun c => BitVec.ofNat 8 c.toNat

/-! ## WellFormed: the five internal operations have no word (30_encoding.md R70); a program that uses a name before it is
bound is refused (R71) -/

theorem test_wf_commands : (Instr.fillBytes 0 0).wellFormed = true ∧ (Instr.fillLetters (-1) (-1)).wellFormed = true := by
  decide

theorem test_wf_refuses_step : Instr.step.wellFormed = false ∧ encode .step = none := by decide

theorem test_wf_refuses_bchunk : Instr.bchunk.wellFormed = false ∧ encode .bchunk = none := by decide

theorem test_wf_refuses_btail : Instr.btail.wellFormed = false ∧ encode .btail = none := by decide

theorem test_wf_refuses_lchunk : Instr.lchunk.wellFormed = false ∧ encode .lchunk = none := by decide

theorem test_wf_refuses_ltail : Instr.ltail.wellFormed = false ∧ encode .ltail = none := by decide

theorem test_wf_refuses_unbound_name :
    Program.wellFormed ([⟨.bytes, 8, .name "r0".toList, "r1".toList⟩] : Program) = false := by decide

/-! ## Decoding: words written out from R61 (`OP_SIZE_SEED`), as 95_test_vectors.md section 7 prints them -/

/-- P1. -/
theorem test_decode_fill_letters :
    decodeTableWord 136 0x1_0000000000000020_490C734AD1CCF6E9 = some (.fillLetters 32 0x490C734AD1CCF6E9) := by
  decide

/-- P2, third command. -/
theorem test_decode_fill_bytes :
    decodeTableWord 136 0x0_0000000000000010_490C734AD1CCF6E9 = some (.fillBytes 16 0x490C734AD1CCF6E9) := by
  decide

/-- Bit 0 of SEED, bit 0 of SIZE and OP, one at a time (R61). -/
theorem test_decode_single_bits :
    decodeTableWord 136 (2 ^ 0) = some (.fillBytes 0 1) ∧
    decodeTableWord 136 (2 ^ 63) = some (.fillBytes 0 0x8000000000000000) ∧
    decodeTableWord 136 (2 ^ 64) = some (.fillBytes 1 0) ∧
    decodeTableWord 136 (2 ^ 127) = some (.fillBytes 0x8000000000000000 0) ∧
    decodeTableWord 136 (2 ^ 128) = some (.fillLetters 0 0) := by
  decide

/-- A number wider than a command word is refused by name (log 13). -/
theorem test_decode_refuses_wider : decodeNumber (2 ^ 129) = .error .widerThanCommandWord := by decide

/-- P1, the encoder. -/
theorem test_encode_fill_letters :
    encode (.fillLetters 32 0x490C734AD1CCF6E9) = some 0x1_0000000000000020_490C734AD1CCF6E9 := by
  decide

/-! ## Beat words (R65): P3's first, P1's second -/

theorem test_beat_word_bytes :
    (st .run .bytes 1 10 0 []).out.map Beat.word = some 0x0000000000000000_8_00000000000000003C88596C := by
  decide

theorem test_beat_word_letters :
    (st .run .letters 0xEDE02768AAF95334 20 12 []).out.map Beat.word =
      some 0x000000000000000C_C_617474677A667266667A6964 := by
  decide

/-! ## STEP (40_lcg_step.md R80; V1, V4, V9, V12) -/

theorem test_step_vectors :
    lcgNext 0 = 0x000000003C6EF35F ∧ lcgNext 0xFFFFFFFFFFFFFFFF = 0x000000003C558D52 ∧
    lcgNext 0x0000100000000000 = 0x9660D0003C6EF35F ∧ lcgNext 0x490C734AD1CCF6E9 = 0xEDE02768AAF95334 := by
  decide

/-- V12, executed: nothing but S changes. -/
theorem test_exec_step :
    (nextOf (exec .step (st .run .letters 0x490C734AD1CCF6E9 32 5 []))).map registers =
      some (.run, .letters, 0xEDE02768AAF95334, 32, 5) := by
  decide

/-! ## The encoders (95_test_vectors.md section 3: V17, V18, V19; V14 to V16 for the top four bits) -/

theorem test_bchunk_orders :
    bchunk .little 0x0123456789ABCDEF = 0x0123456789ABCDEF ∧ bchunk .big 0x0123456789ABCDEF = 0xEFCDAB8967452301 := by
  decide

theorem test_lchunk_vectors :
    dataCells 12 (lchunk 0x0123456789ABCDEF) = codes "pptxaeemfaic" ∧
    dataCells 12 (lchunk 0x0EE0BE637FBD6420) = codes "abzabfnmefyd" ∧
    dataCells 12 (lchunk 0xFEE0BE637FBD6420) = codes "abzabfnmefyd" := by
  decide

theorem test_ltail_vectors :
    ltail 0xFFFFFFFFFFFFFFFF = 0x70 ∧ ltail 0x0FFFFFFFFFFFFFFF = 0x6E ∧ ltail 0xF000000000000000 = 0x63 ∧
    ltail 0x0123456789ABCDEF = 0x7A := by
  decide

/-! ## The beats, one step each: the worked examples of R101, R102, R121, R123 -/

theorem test_exec_bchunk :
    let s := st .run .bytes 0 8 0 []
    nextOf (exec .bchunk s) =
      some { s with S := 0x3C6EF35F, off := 8, rem := 0, dst := cellsAt 0 [0x5F, 0xF3, 0x6E, 0x3C, 0, 0, 0, 0] } := by
  decide

theorem test_exec_btail :
    let s := st .run .bytes 0x3C6EF35F 3 8 []
    nextOf (exec .btail s) = some { s with S := 0x0005FEED47502932, off := 9, rem := 2, dst := [(8, 0x32)] } := by
  decide

theorem test_exec_lchunk :
    let s := st .run .letters 0x490C734AD1CCF6E9 32 0 []
    nextOf (exec .lchunk s) =
      some { s with S := 0xEDE02768AAF95334, off := 12, rem := 20, dst := cellsAt 0 (codes "uzuspvcnhbyb") } := by
  decide

theorem test_exec_ltail :
    let s := st .run .letters 0x3D4E66C96252E503 8 24 []
    nextOf (exec .ltail s) = some { s with S := 0x639A0F7F9F2EC686, off := 25, rem := 7, dst := [(24, 0x61)] } := by
  decide

/-! ## The sequencer, one step each -/

/-- The worked example of R141. -/
theorem test_accept :
    (nextOf (step (st .idle .bytes 7 9 9 [Inputs.offer 0x1_0000000000000020_490C734AD1CCF6E9]))).map registers =
      some (.run, .letters, 0x490C734AD1CCF6E9, 32, 0) := by
  decide

/-- The same word placed by withFetchWord, from reset. -/
theorem test_accept_from_reset :
    (nextOf (step (State.reset.withFetchWord 136 0x1_0000000000000020_490C734AD1CCF6E9))).map registers =
      some (.run, .letters, 0x490C734AD1CCF6E9, 32, 0) := by
  decide

/-- R61, R141 at SIZE_W = 4: OP is bit 68, SIZE bits 67 to 64. -/
theorem test_accept_at_width_4 :
    registers (stepUnder (Inputs.offer 0x1_9_490C734AD1CCF6E9) (State.resetAt 4)) =
      (.run, .letters, 0x490C734AD1CCF6E9, 9, 0) := by
  decide

/-- P1, the second beat, through step. -/
theorem test_step_beat :
    let s := st .run .letters 0xEDE02768AAF95334 20 12 [Inputs.willing]
    nextOf (step s) =
      some { s with S := 0x3D4E66C96252E503, off := 24, rem := 8, dst := cellsAt 12 (codes "dizffrfzgtta"),
                    inputs := [], draws := 1 } := by
  decide

/-- R144: a beat that is not taken. -/
theorem test_stall :
    let s := st .run .letters 0xEDE02768AAF95334 20 12 [stalled]
    nextOf (step s) = some { s with inputs := [], draws := 1 } := by
  decide

/-- R145: the end of beats needs nobody. -/
theorem test_end_of_beats :
    (nextOf (step (st .run .bytes 0x614D8D4C5E98C13F 0 0 [stalled]))).map registers =
      some (.resp, .bytes, 0x614D8D4C5E98C13F, 0, 0) := by
  decide

/-- R146, P1's last event. -/
theorem test_respond :
    (nextOf (step (st .resp .letters 0x84D73C0A9D23E50B 0 32 [Inputs.willing]))).map (fun t => (t.phase, t.responses)) =
      some (.idle, [0x84D73C0A9D23E50B]) := by
  decide

/-- P5: reset while a beat would be taken; S is not looked at. -/
theorem test_reset_wins :
    (nextOf (step (st .run .bytes 0x0005FEED47502932 2 9 [resetting 0]))).map
      (fun t => ((t.phase, t.mode, t.rem, t.off), t.responses)) = some ((.idle, .bytes, 0, 0), []) := by
  decide

/-- 20_memory.md R53: the platform binds a destination while CORE is idle. -/
theorem test_bind :
    (nextOf (step (st .idle .bytes 0 0 0 [{ stalled with bind := some [(1, 0xEE), (0, 0xEE)] }]))).map (fun t => t.dst) =
      some [(0, 0xEE), (1, 0xEE)] := by
  decide

/-! ## The big-step layer: V26 (chunk then tail), V35 -/

theorem test_fill_bytes_15 :
    fill .little .bytes 15 0 =
      ([0x5F, 0xF3, 0x6E, 0x3C, 0, 0, 0, 0, 0x32, 0xE9, 0x34, 0x03, 0x86, 0x2D, 0xA8], 0x0A5E4D11A3D95FA8) := by
  decide

theorem test_fill_letters_13 : fill .little .letters 13 0 = (codes "facdgeaaaaaaq", 0x0005FEED47502932) := by
  decide

/-! ## The written form (R71): what is refused -/

theorem test_asm_errors :
    parseLine "FILL_WORDS 1, 1 -> r0" = .error .badMnemonic ∧ parseLine "FILL_BYTES x, 1 -> r0" = .error .badSize ∧
    parseLine "FILL_BYTES 1, 0x10000000000000000 -> r0" = .error .badSeed ∧
    parseLine "FILL_BYTES 1, 1 -> 7" = .error .badName ∧ parseLine "FILL_BYTES 1 1 -> r0" = .error .badForm ∧
    parseLine "  # nothing" = .ok none ∧ parseLine "FILL_BYTES 16, 1 -> r0" 4 = .error .badSize := by
  decide

/-! ## Witnesses: the hypotheses of each obligation are met together, with a case for each clause -/

/-- In RUN with MODE and REM as given, everybody willing. -/
def running (mode : Op) (rem : Size) : State :=
  st .run mode 1 rem 0 [Inputs.willing]

theorem test_hyp_DecodeAndEncodeAgree :
    (∃ i : Instr, i.wellFormed = true) ∧ (∃ i : Instr, i.wellFormed = false) :=
  ⟨⟨.fillBytes 0 0, rfl⟩, ⟨.step, rfl⟩⟩

theorem test_hyp_CommandWordLayoutAtEveryWidth : 0 < 64 ∧ 63 < 64 ∧ 63 < Config.sizeW := by decide

theorem test_hyp_OpBitSelectsTheCommand :
    (∃ x : CmdWord, x.getLsbD 128 = false) ∧ (∃ x : CmdWord, x.getLsbD 128 = true) :=
  ⟨⟨0x0_0000000000000010_490C734AD1CCF6E9, by decide⟩, ⟨0x1_0000000000000020_490C734AD1CCF6E9, by decide⟩⟩

theorem test_hyp_SampleCommandWordsDecode : ∃ w, 2 ^ 129 ≤ w := ⟨2 ^ 129, Nat.le_refl _⟩

/-- One state for each of N = 1, 8, 12; in each the sink takes the beat. -/
theorem test_hyp_BeatWordLayoutAtEveryWidth :
    (running .bytes 7).out.map Beat.n = some 1 ∧ (running .bytes 8).out.map Beat.n = some 8 ∧
    (running .letters 12).out.map Beat.n = some 12 ∧
    ∀ op rem, (running op rem).sample.reset = false ∧ (running op rem).sample.outReady = true := by
  exact ⟨by decide, by decide, by decide, fun _ _ => ⟨rfl, rfl⟩⟩

theorem test_hyp_BeatKindFollowsFromTheCommand :
    (running .bytes 7).out.isSome = true ∧ (running .bytes 8).out.isSome = true ∧
    (running .letters 11).out.isSome = true ∧ (running .letters 12).out.isSome = true := by
  decide

/-- A beat is taken; it is not taken; there is none. -/
theorem test_hyp_EveryBeatIsOneStep :
    (let s := running .bytes 1
     s.phase = .run ∧ s.sample.reset = false ∧ s.selected.isSome = true ∧ s.sample.outReady = true) ∧
    (let s := st .run .bytes 1 1 0 [stalled]
     s.phase = .run ∧ s.sample.reset = false ∧ s.sample.outReady = false) ∧
    (let s := running .bytes 0
     s.phase = .run ∧ s.sample.reset = false ∧ s.selected.isSome = false) := by
  decide

theorem test_hyp_LowBitsDependOnLowBits : (1 ≤ 1 ∧ 1 ≤ 64) ∧ (1 ≤ 64 ∧ 64 ≤ 64) ∧ 63 < 64 := by decide

theorem test_hyp_StepHasNoFixedPoint :
    stepCount .bytes 1 = 1 ∧ stepCount .bytes 8 = 1 ∧ stepCount .letters 1 = 1 ∧ stepCount .letters 12 = 1 := by
  decide

theorem test_hyp_LowBitsHaveFullPeriod : 0 ≤ 64 ∧ 64 ≤ 64 := by decide

theorem test_hyp_ByteOrderOfAChunk : 0 < 8 ∧ 7 < 8 ∧ BeatKind.btail ≠ .bchunk ∧ BeatKind.lchunk ≠ .bchunk := by decide

theorem test_hyp_FieldReductionTable : (25 : BitVec 5).toNat ≤ 25 ∧ 26 ≤ (26 : BitVec 5).toNat ∧ 26 ≤ (31 : BitVec 5).toNat := by
  decide

theorem test_hyp_TheTwoLetterPathsReduceDifferently : 0 < 12 ∧ 11 < 12 := by decide

theorem test_hyp_EveryLetterIsInRange :
    0x61 ∈ (fill .little .letters 12 0).1 ∧
    (∃ b, (running .letters 12).mode = .letters ∧ (running .letters 12).out = some b ∧ 11 < b.n.toNat) ∧
    (∃ b, (running .letters 1).mode = .letters ∧ (running .letters 1).out = some b ∧ 0 < b.n.toNat) := by
  exact ⟨by decide, ⟨_, rfl, rfl, by decide⟩, ⟨_, rfl, rfl, by decide⟩⟩

theorem test_hyp_TopFourBitsReachNoLane :
    (0x0FFFFFFFFFFFFFFF : Word64).extractLsb' 0 60 = (0xFFFFFFFFFFFFFFFF : Word64).extractLsb' 0 60 ∧
    (let s := running .letters 12
     s.phase = .run ∧ s.mode = .letters ∧ 12 ≤ s.rem.toNat) := by
  decide

theorem test_hyp_BchunkWritesEightBytes :
    (let s := running .bytes 8
     s.phase = .run ∧ s.mode = .bytes ∧ 8 ≤ s.rem.toNat) ∧ 0 < 8 ∧ 7 < 8 := by
  decide

theorem test_hyp_BtailWritesTheLowByte :
    (let s := running .bytes 1
     s.phase = .run ∧ s.mode = .bytes ∧ 1 ≤ s.rem.toNat ∧ s.rem.toNat ≤ 7) ∧
    (let s := running .bytes 7
     s.phase = .run ∧ s.mode = .bytes ∧ 1 ≤ s.rem.toNat ∧ s.rem.toNat ≤ 7) := by
  decide

theorem test_hyp_LchunkWritesTwelveLetters :
    (let s := running .letters 12
     s.phase = .run ∧ s.mode = .letters ∧ 12 ≤ s.rem.toNat) ∧ 0 < 12 ∧ 11 < 12 := by
  decide

theorem test_hyp_LtailWritesOneLetter :
    (let s := running .letters 1
     s.phase = .run ∧ s.mode = .letters ∧ 1 ≤ s.rem.toNat ∧ s.rem.toNat ≤ 11) ∧
    (let s := running .letters 11
     s.phase = .run ∧ s.mode = .letters ∧ 1 ≤ s.rem.toNat ∧ s.rem.toNat ≤ 11) := by
  decide

/-- Selected differently, nothing left, and not in RUN. -/
theorem test_hyp_UnselectedBeatChangesNothing :
    (running .bytes 7).selected ≠ some .bchunk ∧ (running .letters 0).selected ≠ some .ltail ∧
    State.reset.selected ≠ some .lchunk := by
  decide

theorem test_hyp_ChunkReadsBackAsTheSteppedValue :
    ∃ t, let s := running .bytes 8
      s.phase = .run ∧ s.mode = .bytes ∧ 8 ≤ s.rem.toNat ∧ exec .bchunk s = .next t :=
  ⟨_, rfl, rfl, by decide, rfl⟩

theorem test_hyp_CommandIsAcceptedInIdle :
    State.reset.phase = .idle ∧
    (let s := running .bytes 8
     s.phase ≠ .idle ∧ s.inputs = Inputs.willing :: []) := by
  decide

theorem test_hyp_CommandOfferedWhileBusyWaits :
    (let s := running .bytes 8
     s.phase ≠ .idle ∧ s.inputs = Inputs.willing :: []) ∧
    (let s := st .resp .bytes 1 0 8 [stalled]
     s.phase ≠ .idle ∧ s.inputs = stalled :: []) := by
  decide

theorem test_hyp_BeatSelectionTable :
    (running .bytes 1).phase = .run ∧
    (1 : Size).toNat ≤ (7 : Size).toNat ∧ selectBeat .bytes (7 : Size) = some .btail ∧ selectBeat .letters (11 : Size) = some .ltail := by
  decide

/-- A command in IDLE; a beat in RUN; a step without and with a binding; a word placed. -/
theorem test_hyp_StepRunsTheOperationThatFires :
    (let s := st .idle .bytes 0 0 0 [Inputs.offer 0]
     s.sample.reset = false ∧ s.phase = .idle ∧ s.sample.cmd = some 0) ∧
    (let s := running .letters 12
     s.sample.reset = false ∧ s.selected = some .lchunk ∧ s.sample.outReady = true ∧ s.phase ≠ .idle) ∧
    (st .idle .bytes 0 0 0 [stalled]).sample.bind = none ∧
    (let s := st .idle .bytes 0 0 0 [{ stalled with bind := some [(0, 0xEE)] }]
     s.phase = .idle ∧ s.sample.bind = some [(0, 0xEE)]) ∧
    decodeTableWord 136 (2 ^ 129 - 1) = some (.fillLetters (-1) (-1)) := by
  decide

/-- The sink takes the beat (of 1 cell, and of 12), and does not. -/
theorem test_hyp_BeatTransferAdvancesTheCommand :
    (let s := running .bytes 1
     s.phase = .run ∧ 0 < s.rem.toNat ∧ s.sample.reset = false ∧ s.sample.outReady = true) ∧
    (let s := running .letters 12
     s.phase = .run ∧ 0 < s.rem.toNat ∧ s.sample.reset = false ∧ s.sample.outReady = true) ∧
    (let s := st .run .bytes 1 1 0 [stalled]
     s.phase = .run ∧ 0 < s.rem.toNat ∧ s.sample.reset = false ∧ s.sample.outReady = false) := by
  decide

theorem test_hyp_StallChangesNoRegister :
    (let s := st .run .bytes 1 1 0 [stalled, stalled, Inputs.willing]
     s.inputs = [stalled, stalled] ++ [Inputs.willing] ∧ s.out.isSome = true ∧
     ∀ p ∈ [stalled, stalled], p.reset = false ∧ p.outReady = false) ∧
    (let s := st .resp .bytes 1 0 1 [stalled]
     s.inputs = [stalled] ++ [] ∧ s.rsp.isSome = true ∧ ∀ p ∈ [stalled], p.reset = false ∧ p.rspReady = false) := by
  decide

theorem test_hyp_IdleWaitsForACommand :
    let s := st .idle .bytes 0 0 0 [stalled]
    s.phase = .idle ∧ s.sample.reset = false ∧ s.sample.cmd = none ∧ s.sample.bind = none := by
  decide

theorem test_hyp_EndOfBeatsNeedsNothing :
    let s := st .run .bytes 0 0 0 [stalled]
    s.phase = .run ∧ s.rem = 0 ∧ s.sample.reset = false := by
  decide

theorem test_hyp_ResponseReturnsTheGeneratorState :
    let s := st .resp .bytes 5 0 8 [Inputs.willing]
    s.phase = .resp ∧ s.sample.reset = false ∧ s.sample.rspReady = true := by
  decide

theorem test_hyp_ResetStateIsTheTable : (st .resp .letters 5 0 8 [resetting 0]).sample.reset = true := by decide

theorem test_hyp_ResetWinsOverEveryRule :
    ∀ phase ∈ [Phase.idle, .run, .resp], (st phase .letters 5 12 0 [resetting 0]).sample.reset = true := by
  decide

/-- `FILL_BYTES 11, 0` of program P5. -/
def p5 : Command :=
  { op := .bytes, size := 11, seed := 0 }

/-- CORE idle with the command of P5 offered, then the given samples. -/
def offered (rest : List Inputs) : State :=
  st .idle .letters 77 5 5 (Inputs.offer p5.word :: rest)

/-- P5 accepted over eleven cells of 0xEE, with the given samples to come. -/
def p5Start (inputs : List Inputs) : State :=
  { st .run .bytes 0 11 0 inputs with dst := cellsAt 0 (List.replicate 11 0xEE) }

/-- P5 after its second beat. -/
def p5AfterTwo (inputs : List Inputs) : State :=
  ((p5Start inputs).performBeat .bchunk).performBeat .btail

/-- The state 95_test_vectors.md gives there. -/
theorem test_p5_after_two_beats :
    p5AfterTwo [] =
      { st .run .bytes 0x0005FEED47502932 2 9 [] with
        dst := cellsAt 0 [0x5F, 0xF3, 0x6E, 0x3C, 0, 0, 0, 0, 0x32, 0xEE, 0xEE] } := by
  decide

theorem running_p5AfterTwo (inputs : List Inputs) :
    Running p5 (p5Start []).dst [] 2 (p5AfterTwo inputs) where
  phase := rfl
  mode := rfl
  count := by decide
  gen := rfl
  off := rfl
  rem := by
    have h : (p5AfterTwo []).off.toNat + (p5AfterTwo []).rem.toNat = p5.size.toNat := by decide
    exact h
  cells := by
    refine ⟨fun p hp => ?_, fun p hp => ?_⟩
    · have h : ∀ q < 9, (p5AfterTwo []).dst.read q = p5.result.1[q]? := by decide
      exact h p hp
    · have hp : 9 ≤ p := hp
      have h8 : (p5Start inputs).off.toNat = 0 := rfl
      have h9 : ((p5Start inputs).performBeat .bchunk).off.toNat = 8 := rfl
      rw [p5AfterTwo, performBeat_read, performBeat_read, h8, h9]
      simp only [BeatKind.cells_btail, BeatKind.cells_bchunk]
      rw [if_neg (by omega), if_neg (by omega)]
      rfl
  rsps := rfl

/-- No beat is left: a command of no element. -/
theorem running_none (inputs : List Inputs) : Running ⟨.bytes, 0, 5⟩ [] [] 0 (st .run .bytes 5 0 0 inputs) where
  phase := rfl
  mode := rfl
  count := by decide
  gen := rfl
  off := rfl
  rem := rfl
  cells := ⟨fun p hp => absurd hp (Nat.not_lt_zero p), fun _ _ => rfl⟩
  rsps := rfl

theorem responding_none (inputs : List Inputs) : Responding ⟨.bytes, 0, 5⟩ [] [] (st .resp .bytes 5 0 0 inputs) where
  phase := rfl
  gen := rfl
  rem := rfl
  off := rfl
  cells := ⟨fun p hp => absurd hp (Nat.not_lt_zero p), fun _ _ => rfl⟩
  rsps := rfl

/-- In RUN with a whole chunk left at a multiple of the chunk size, and a step from there. -/
theorem test_hyp_EveryStepKeepsTheInvariant :
    ∃ s t : State, Inv s ∧ s.phase = .run ∧ step s = .next t := by
  refine ⟨running .letters 12, _, ⟨⟨fun _ => by decide, fun h => ?_⟩, List.Pairwise.nil⟩, rfl, rfl⟩
  exact absurd h (by decide)

/-- The same at SIZE_W = 4, with the largest REM that holds a letter chunk's 12 cells at OFF 0. -/
theorem test_hyp_EveryStepKeepsTheInvariant_width_4 :
    ∃ s : State 4, Inv s ∧ s.phase = .run ∧ s.rem = 15 := by
  refine ⟨{ State.resetAt 4 with phase := .run, mode := .letters, rem := 15 }, ⟨⟨fun _ => ?_, ?_⟩, List.Pairwise.nil⟩, rfl, rfl⟩
  · decide
  · exact fun h => absurd h (by decide)

theorem test_hyp_AcceptanceStartsACommand : Offered p5 (offered []) := by
  unfold Offered
  decide

theorem test_hyp_NoStateCarriesBetweenCommands :
    Offered p5 (offered []) ∧ Offered p5 (State.reset.withOffer p5.word) := by
  unfold Offered
  decide

/-- A beat is left and taken, is left and not taken, is not left; a response is taken, and not taken. -/
theorem test_hyp_CommandStaysOnCourse :
    (∀ p ∈ [Inputs.willing, stalled],
      Running p5 (p5Start []).dst [] 2 (p5AfterTwo [p]) ∧ (p5AfterTwo [p]).sample.reset = false ∧ 2 < p5.steps) ∧
    (Running ⟨.bytes, 0, 5⟩ [] [] 0 (st .run .bytes 5 0 0 [stalled]) ∧
      (st .run .bytes 5 0 0 [stalled]).sample.reset = false) ∧
    (∀ p ∈ [Inputs.willing, stalled],
      Responding ⟨.bytes, 0, 5⟩ [] [] (st .resp .bytes 5 0 0 [p]) ∧ (st .resp .bytes 5 0 0 [p]).sample.reset = false) := by
  refine ⟨fun p hp => ⟨running_p5AfterTwo _, ?_, by decide⟩, ⟨running_none _, rfl⟩, fun p hp => ⟨responding_none _, ?_⟩⟩ <;>
    · simp only [List.mem_cons, List.not_mem_nil, or_false] at hp
      rcases hp with rfl | rfl <;> rfl

theorem test_hyp_LayersAgreeInAWillingEnvironment :
    let rest := List.replicate 6 Inputs.willing
    let s := offered (rest ++ [stalled])
    Offered p5 s ∧ s.inputs = Inputs.offer p5.word :: (rest ++ [stalled]) ∧ rest.length = p5.steps + 2 ∧
      ∀ p ∈ rest, p.isWilling = true := by
  unfold Offered
  decide

/-- `FILL_LETTERS 13, 0` on a CORE of SIZE_W = 4. -/
def narrow : Command 4 :=
  { op := .letters, size := 13, seed := 0 }

/-- It is offered once, and from then on the sink alone is willing at even moments and the requester alone at odd ones: the
two are never willing together. -/
def apart (n : Nat) : Inputs 4 :=
  match n with
  | 0 => { (Inputs.offer narrow.word : Inputs 4) with outReady := false, rspReady := false }
  | n + 1 => { (Inputs.willing : Inputs 4) with outReady := n % 2 == 0, rspReady := n % 2 == 1 }

theorem test_hyp_LayersAgreeInAWillingEnvironment_width_4 :
    let env : Nat → Inputs 4 := fun n => if n = 0 then Inputs.offer narrow.word else Inputs.willing
    OfferedUnder env narrow (State.resetAt 4) ∧ ∀ n, 1 ≤ n → n ≤ narrow.steps + 2 → (env n).isWilling = true := by
  refine ⟨⟨rfl, rfl, rfl⟩, fun n h1 _ => ?_⟩
  simp only [show n ≠ 0 by omega, if_false]
  rfl

/-- A sink and a requester that are weakly fair and never willing together. -/
theorem test_hyp_StallsDelayACommandAndNothingElse_fair :
    OfferedUnder apart narrow (State.resetAt 4) ∧ NoReset apart ∧ SinkFair apart (State.resetAt 4) ∧
      RequesterFair apart (State.resetAt 4) ∧ ∀ n, (apart n).isWilling = false := by
  refine ⟨⟨rfl, rfl, rfl⟩, fun n => ?_, fun n => ⟨2 * n + 1, by omega, fun _ => ?_⟩,
    fun n => ⟨2 * n + 2, by omega, fun _ => ?_⟩, fun n => ?_⟩
  · cases n <;> rfl
  · simp [apart]
  · simp [apart]
  · rcases n with _ | n
    · rfl
    · simp [apart, Inputs.isWilling, Inputs.willing]

/-- The same environment serves the transfers. -/
theorem test_hyp_TransfersOfOneCommandInOrder_fair :
    OfferedUnder apart narrow (State.resetAt 4) ∧ NoReset apart ∧ SinkFair apart (State.resetAt 4) ∧
      RequesterFair apart (State.resetAt 4) :=
  have h := test_hyp_StallsDelayACommandAndNothingElse_fair
  ⟨h.1, h.2.1, h.2.2.1, h.2.2.2.1⟩

/-- Two unwilling moments among six willing ones. -/
theorem test_hyp_StallsDelayACommandAndNothingElse :
    let rest := stalled :: Inputs.willing :: stalled :: List.replicate 5 Inputs.willing
    let s := offered (rest ++ [])
    Offered p5 s ∧ s.inputs = Inputs.offer p5.word :: (rest ++ []) ∧ (∀ p ∈ rest, p.reset = false) ∧
      p5.steps + 2 ≤ (rest.filter Inputs.isWilling).length := by
  unfold Offered
  decide

theorem test_hyp_TransfersOfOneCommandInOrder :
    let rest := List.replicate 6 Inputs.willing
    let s := offered (rest ++ [])
    Offered p5 s ∧ s.inputs = Inputs.offer p5.word :: (rest ++ []) ∧ rest.length = p5.steps + 2 ∧
      ∀ p ∈ rest, p.isWilling = true := by
  unfold Offered
  decide

theorem test_hyp_SizeZeroHasNoBeat :
    let c : Command := ⟨.letters, 0, 5⟩
    let s := State.withOffer (st .idle .bytes 0 0 0 [Inputs.willing, Inputs.willing]) c.word
    c.size = 0 ∧ Offered c s ∧ s.inputs = Inputs.offer c.word :: Inputs.willing :: Inputs.willing :: [] ∧
      (Inputs.willing : Inputs).isWilling = true := by
  unfold Offered
  decide

/-- P5: reset after the second beat, then the same command again. -/
theorem test_hyp_AbandonedCommandCanBeReissued :
    let rest := List.replicate 6 Inputs.willing
    let r := resetting 0
    let first := Inputs.offer p5.word
    let s := p5AfterTwo (r :: first :: (rest ++ []))
    Running p5 (p5Start []).dst [] 2 s ∧ s.inputs = r :: first :: (rest ++ []) ∧ r.reset = true ∧
      first.reset = false ∧ first.cmd = some p5.word ∧ first.bind = none ∧
      rest.length = p5.steps + 2 ∧ ∀ p ∈ rest, p.isWilling = true :=
  ⟨running_p5AfterTwo _, rfl, by decide, by decide, by decide, by decide, by decide, by decide⟩

theorem test_hyp_BeatPlanOfACommand : chunkLen .bytes ≤ 8 ∧ chunkLen .letters ≤ 12 := by decide

/-- Size 11: the last byte of the chunk, the first and the last of the tail. -/
theorem test_hyp_EveryOutputByteInClosedForm :
    7 < 8 * (11 / 8) ∧ (8 * (11 / 8) ≤ 8 ∧ 8 < 11) ∧ (8 * (11 / 8) ≤ 10 ∧ 10 < 11) := by
  decide

/-- Size 14: the last letter of the chunk, the first and the last of the tail. -/
theorem test_hyp_EveryOutputLetterInClosedForm :
    11 < 12 * (14 / 12) ∧ (12 * (14 / 12) ≤ 12 ∧ 12 < 14) ∧ (12 * (14 / 12) ≤ 13 ∧ 13 < 14) := by
  decide

/-- The first case alone, the second case alone (V42), and both. -/
theorem test_hyp_GeneralSplittingLaw :
    (8 % chunkLen .bytes = 0 ∧ ¬ 8 < chunkLen .bytes) ∧
    (3 % chunkLen .bytes ≠ 0 ∧ 4 < chunkLen .bytes ∧ 3 % chunkLen .bytes + 4 < chunkLen .bytes) ∧
    (12 % chunkLen .letters = 0 ∧ 5 < chunkLen .letters ∧ 12 % chunkLen .letters + 5 < chunkLen .letters) := by
  decide

/-- V44's step counts, 5 and 5 against 10. -/
theorem test_hyp_EqualStepCountsGiveEqualSeeds :
    stepCount .letters 16 + stepCount .letters 16 = stepCount .letters (16 + 16) := by
  decide

/-- The shape of P2: a name used after it is bound. -/
def chained : Program :=
  [⟨.bytes, 8, .literal 0x490C734AD1CCF6E9, "r0".toList⟩, ⟨.bytes, 8, .name "r0".toList, "r1".toList⟩]

/-- The commands P2 gives for these lines. -/
def chainedCommands : List Command :=
  [⟨.bytes, 8, 0x490C734AD1CCF6E9⟩, ⟨.bytes, 8, 0xEDE02768AAF95334⟩]

theorem test_hyp_WellFormedProgramsHaveCommands :
    chained.wellFormed = true ∧ chained.commands = some chainedCommands := by
  decide

theorem test_hyp_ProgramReturnsItsSeedsInOrder :
    let s := st .idle .bytes 0 0 0 (scheduleAll chainedCommands ++ [stalled])
    chained.commands = some chainedCommands ∧ s.phase = .idle ∧
      s.inputs = scheduleAll chainedCommands ++ [stalled] := by
  decide

end Sys2Proof.Tests
end

/-! SUPPORT. How a step follows from the state and the environment: one equation per case of `stepUnder`, the channel
signals by the phase, and the command that a command word spells. -/

namespace Sys2Proof.Machine

variable {w : Nat}

/-! ## The command word (30_encoding.md R61) -/

@[simp] theorem ofBit_toBit (op : Op) : Op.ofBit op.toBit = op := by
  cases op <;> rfl

@[simp] theorem cmdSeed_packCmd (op : Op) (size : BitVec w) (seed : Word64) :
    cmdSeed w (packCmd w op size seed) = seed :=
  BitVec.extractLsb'_append_eq_right

@[simp] theorem cmdSize_packCmd (op : Op) (size : BitVec w) (seed : Word64) :
    cmdSize w (packCmd w op size seed) = size := by
  rw [cmdSize, packCmd, BitVec.extractLsb'_append_eq_of_le le_rfl]
  exact BitVec.extractLsb'_append_eq_right

@[simp] theorem cmdOp_packCmd (op : Op) (size : BitVec w) (seed : Word64) :
    cmdOp w (packCmd w op size seed) = op := by
  rw [cmdOp, packCmd, BitVec.extractLsb'_append_eq_of_le (by omega), Nat.add_sub_cancel_left,
    BitVec.extractLsb'_append_eq_left, ofBit_toBit]

/-- The word a requester forms for a command spells that command. -/
@[simp] theorem commandOf_word (c : Command w) : commandOf c.word = c := by
  simp [commandOf, Command.word]

/-! ## The step, one equation per case -/

/-- At the default width the step is `stepUnder` of the state's own sample. -/
theorem step_eq_stepUnder (s : State) : step s = .next (stepUnder s.sample s) := by
  by_cases hr : s.sample.reset = true
  · simp [step, stepUnder, hr]
  · rcases hf : fetch (s.taking s.sample) s.sample with _ | f <;>
      simp [step, stepUnder, State.sampled, hr, hf, exec_fire]

theorem selected_eq_none_iff {s : State w} (hp : s.phase = .run) : s.selected = none ↔ s.rem = 0 := by
  rw [selected_of_run hp, selectBeat, beatFor_eq_none]
  exact (BitVec.toNat_eq (y := 0)).symm

theorem rem_ne_zero_of_selected {s : State w} {k : BeatKind} (hs : s.selected = some k) : s.rem ≠ 0 := fun h0 => by
  simp [(selected_eq_none_iff (selected_some hs).1).mpr h0] at hs

section Cases

variable {p : Inputs w} {s : State w}

theorem stepUnder_reset (hr : p.reset = true) : stepUnder p s = resetStep s := by
  simp [stepUnder, hr]

variable (hr : p.reset = false)
include hr

theorem stepUnder_offered {c : Command w} (hp : s.phase = .idle) (hc : p.cmd = some c.word) :
    stepUnder p s = (s.taking p).accept c.op c.size c.seed := by
  have hi : (s.taking p).phase = .idle := by simpa using hp
  simp [stepUnder, hr, fetch, hp, hc, State.fire, takeCommand_idle _ _ _ hi]

theorem stepUnder_beat {k : BeatKind} (hs : s.selected = some k) (ho : p.outReady = true) :
    stepUnder p s = s.advance.performBeat k := by
  obtain ⟨hp, hk⟩ := selected_some hs
  have hb : s.taking p = s.advance := s.taking_busy p (by simp [hp])
  have hrun : s.advance.runBeat k = s.advance.performBeat k := runBeat_selected hs
  simp [stepUnder, hr, fetch, hp, hb, ho, hk, State.fire, hrun]

theorem stepUnder_stalled {k : BeatKind} (hs : s.selected = some k) (ho : p.outReady = false) :
    stepUnder p s = s.advance := by
  have hp := (selected_some hs).1
  have hb : s.taking p = s.advance := s.taking_busy p (by simp [hp])
  have hrem := rem_ne_zero_of_selected hs
  simp only [stepUnder, hr, fetch, hp, hb, ho, betweenOps, State.advance_phase, State.advance_rem, hrem]
  simp

theorem stepUnder_endBeats (hp : s.phase = .run) (h0 : s.rem = 0) : stepUnder p s = s.advance.endBeats := by
  have hb : s.taking p = s.advance := s.taking_busy p (by simp [hp])
  have hk : selectBeat s.mode s.rem = none := (selected_of_run hp).symm.trans ((selected_eq_none_iff hp).mpr h0)
  simp only [stepUnder, hr, fetch, hb, State.advance_phase, State.advance_mode, State.advance_rem, hp, hk, betweenOps]
  simp [h0]

theorem stepUnder_respond (hp : s.phase = .resp) (ho : p.rspReady = true) :
    stepUnder p s = s.advance.respond := by
  have hb : s.taking p = s.advance := s.taking_busy p (by simp [hp])
  simp [stepUnder, hr, fetch, hp, hb, ho, betweenOps]

theorem stepUnder_unanswered (hp : s.phase = .resp) (ho : p.rspReady = false) : stepUnder p s = s.advance := by
  have hb : s.taking p = s.advance := s.taking_busy p (by simp [hp])
  simp [stepUnder, hr, fetch, hp, hb, ho, betweenOps]

end Cases

/-! ## The channel signals (10_state.md R28, 30_encoding.md R60, R64, R67) -/

variable (s : State w)

theorem State.cmdReady_iff : s.cmdReady = true ↔ s.phase = .idle := by
  simp [State.cmdReady]

theorem State.busy_iff : s.busy = true ↔ s.phase ≠ .idle := by
  simp [State.busy]

/-- A beat is selected exactly while elements are left in RUN. -/
theorem State.selected_isSome_iff : s.selected.isSome = true ↔ s.phase = .run ∧ 0 < s.rem.toNat := by
  rcases hp : s.phase with _ | _ | _
  · simp [State.selected, hp]
  · rw [← Option.ne_none_iff_isSome, Ne, selected_eq_none_iff hp, BitVec.toNat_eq]
    simp [Nat.pos_iff_ne_zero]
  · simp [State.selected, hp]

theorem State.outValid_iff : s.outValid = true ↔ s.phase = .run ∧ 0 < s.rem.toNat := by
  simpa [State.outValid, State.out] using s.selected_isSome_iff

theorem State.rsp_eq_some_iff (x : Word64) : s.rsp = some x ↔ s.phase = .resp ∧ x = s.S := by
  rcases hp : s.phase with _ | _ | _ <;> simp [State.rsp, rspWord, hp, eq_comm]

theorem State.rspValid_iff : s.rspValid = true ↔ s.phase = .resp := by
  simp [State.rspValid, Option.isSome_iff_exists, s.rsp_eq_some_iff]

variable {s}

/-- In IDLE the CMD channel alone is open. -/
theorem State.signals_of_idle (hp : s.phase = .idle) :
    s.cmdReady = true ∧ s.outValid = false ∧ s.rspValid = false := by
  simp [← Bool.not_eq_true, s.cmdReady_iff, s.outValid_iff, s.rspValid_iff, hp]

end Sys2Proof.Machine

/-! SUPPORT. Every move of the sequencer keeps the invariant `Inv` (10_state.md R29, 20_memory.md R49). -/

namespace Sys2Proof.Machine

variable {w : Nat} {s : State w}

/-- Chunks stand at multiples of the chunk size: with a whole chunk left the offset is one, with less left the offset is at
or after the last one (20_memory.md R49). -/
def ChunkAligned (op : Op) (off rem : Nat) : Prop :=
  (chunkLen op ≤ rem → off % chunkLen op = 0) ∧
  (rem < chunkLen op → chunkLen op * ((off + rem) / chunkLen op) ≤ off)

theorem chunkAligned_zero (op : Op) (rem : Nat) : ChunkAligned op 0 rem :=
  ⟨fun _ => Nat.zero_mod _, fun h => by simp [Nat.div_eq_of_lt h]⟩

/-- A selected beat leaves the offset aligned: a chunk beat moves it to the next multiple, a tail beat moves it inside the
last incomplete chunk. -/
theorem ChunkAligned.beat {op : Op} {off rem : Nat} {k : BeatKind} (h : ChunkAligned op off rem)
    (hk : beatFor op rem = some k) : ChunkAligned op (off + k.cells) (rem - k.cells) := by
  obtain ⟨hchunk, htail⟩ := h
  have hpos := (beatFor_cells hk).1
  by_cases hc : chunkLen op ≤ rem
  · obtain rfl : chunkBeat op = k := Option.some.inj ((beatFor_chunk hc).symm.trans hk)
    have ha := hchunk hc
    rw [chunkBeat_cells]
    refine ⟨fun _ => by simpa using ha, fun _ => ?_⟩
    cases op <;> simp only [chunkLen_bytes, chunkLen_letters] at * <;> omega
  · have ha := htail (by omega)
    have hsum := beatFor_cells hk
    refine ⟨fun _ => by omega, fun _ => ?_⟩
    rw [show off + k.cells + (rem - k.cells) = off + rem by omega]
    omega

theorem registersOk_run_iff (hp : s.phase = .run) :
    RegistersOk s ↔ s.off.toNat + s.rem.toNat < 2 ^ w ∧ ChunkAligned s.mode s.off.toNat s.rem.toNat := by
  simp [RegistersOk, ChunkAligned, hp]

theorem registersOk_of_idle (hp : s.phase = .idle) : RegistersOk s := by
  simp [RegistersOk, hp]

theorem registersOk_resp_iff (hp : s.phase = .resp) : RegistersOk s ↔ s.rem.toNat = 0 := by
  simp [RegistersOk, hp]

theorem inv_of_idle (hp : s.phase = .idle) (hd : s.dst.wf) : Inv s :=
  ⟨registersOk_of_idle hp, hd⟩

/-- The invariant does not speak of the samples. -/
theorem Inv.advance (h : Inv s) : Inv s.advance := h

theorem Inv.taking (p : Inputs w) (hp : s.phase = .idle) (h : Inv s) : Inv (s.taking p) :=
  inv_of_idle (by simpa using hp) (State.bindDst_wf _ _ h.2)

theorem inv_resetStep (h : Inv s) : Inv (resetStep s) :=
  inv_of_idle (by simp) (by simpa using h.2)

theorem Inv.accept (op : Op) (size : Size w) (seed : Word64) (h : Inv s) : Inv (s.accept op size seed) := by
  refine ⟨(registersOk_run_iff (by simp)).mpr ⟨?_, ?_⟩, by simpa using h.2⟩
  · simpa using size.isLt
  · simpa using chunkAligned_zero op size.toNat

theorem Inv.performBeat {k : BeatKind} (hs : s.selected = some k) (h : Inv s) : Inv (s.performBeat k) := by
  obtain ⟨hp, hk⟩ := selected_some hs
  obtain ⟨hsize, haligned⟩ := (registersOk_run_iff hp).mp h.1
  obtain ⟨hrem, hle, -⟩ := selected_rem hs
  have hoff := performBeat_off (s := s) k (by omega)
  refine ⟨(registersOk_run_iff (by simpa using hp)).mpr ?_, State.performBeat_wf s k h.2⟩
  rw [hoff, hrem, State.performBeat_mode]
  exact ⟨by omega, haligned.beat hk⟩

theorem Inv.endBeats (h0 : s.rem = 0) (h : Inv s) : Inv s.endBeats :=
  ⟨(registersOk_resp_iff (by simp)).mpr (by simp [h0]), by simpa using h.2⟩

theorem Inv.respond (h : Inv s) : Inv s.respond :=
  inv_of_idle (by simp) (by simpa using h.2)

/-- The step keeps the invariant, whatever the environment drives. -/
theorem inv_stepUnder (p : Inputs w) (h : Inv s) : Inv (stepUnder p s) := by
  rcases stepUnder_cases p s with ⟨-, e⟩ |
    ⟨-, ⟨x, hp, -, e⟩ | ⟨hp, -, e⟩ | ⟨k, -, hs, -, e⟩ | ⟨k, -, -, -, e⟩ | ⟨-, h0, e⟩ | ⟨-, -, e⟩ | ⟨-, -, e⟩⟩ <;> rw [e]
  · exact inv_resetStep h
  · exact (h.taking p hp).accept _ _ _
  · exact h.taking p hp
  · exact h.advance.performBeat hs
  · exact h.advance
  · exact h.advance.endBeats h0
  · exact h.advance.respond
  · exact h.advance

end Sys2Proof.Machine

/-! SUPPORT. Where a command stands after `k` beats: the arithmetic of its beats, the cells that the `k`-th beat writes in
the big-step output, and every move of the sequencer on the command's course. -/

namespace Sys2Proof.Machine

variable {w : Nat}

/-! ## The beats of a command of `n` elements -/

theorem beatAt_cells (op : Op) (n k : Nat) :
    (beatAt op n k).cells = if k < n / chunkLen op then chunkLen op else 1 := by
  unfold beatAt
  split <;> simp

theorem beatAt_zero_of_chunk {op : Op} {n : Nat} (h : chunkLen op ≤ n) : beatAt op n 0 = chunkBeat op :=
  if_pos (Nat.div_pos h (chunkLen_pos op))

theorem beatAt_zero_of_tail {op : Op} {n : Nat} (h : n < chunkLen op) : beatAt op n 0 = tailBeat op :=
  if_neg (by simp [Nat.div_eq_of_lt h])

theorem offsetAfter_zero (op : Op) (n : Nat) : offsetAfter op n 0 = 0 := by
  simp [offsetAfter]

theorem offsetAfter_of_chunks_done {op : Op} {n k : Nat} (h : n / chunkLen op ≤ k) :
    offsetAfter op n k = chunkLen op * (n / chunkLen op) + (k - n / chunkLen op) := by
  unfold offsetAfter
  split
  · rw [le_antisymm ‹_› h, Nat.sub_self, Nat.add_zero]
  · rfl

theorem offsetAfter_succ (op : Op) (n k : Nat) :
    offsetAfter op n (k + 1) = offsetAfter op n k + (beatAt op n k).cells := by
  rw [beatAt_cells]
  unfold offsetAfter
  cases op <;> simp only [chunkLen_bytes, chunkLen_letters] <;> split_ifs <;> omega

/-- All the beats of a command together move the offset to its size. -/
theorem offsetAfter_stepCount (op : Op) (n : Nat) : offsetAfter op n (stepCount op n) = n := by
  unfold offsetAfter stepCount
  cases op <;> simp only [chunkLen_bytes, chunkLen_letters] <;> split_ifs <;> omega

/-- While beats are left, selection by the elements left gives the beat of that number (43_command_sequencer.md R142). -/
theorem beatFor_left {op : Op} {n k : Nat} (h : k < stepCount op n) :
    beatFor op (n - offsetAfter op n k) = some (beatAt op n k) := by
  have hc := chunkLen_pos op
  have hsplit := Nat.div_add_mod n (chunkLen op)
  unfold stepCount at h
  by_cases hk : k < n / chunkLen op
  · have hoff : offsetAfter op n k = chunkLen op * k := if_pos hk.le
    have hle : chunkLen op * (k + 1) ≤ chunkLen op * (n / chunkLen op) := Nat.mul_le_mul_left _ hk
    rw [Nat.mul_succ] at hle
    rw [beatAt, if_pos hk]
    exact beatFor_chunk (by omega)
  · have hoff : offsetAfter op n k = chunkLen op * (n / chunkLen op) + (k - n / chunkLen op) :=
      offsetAfter_of_chunks_done (not_lt.mp hk)
    have hmod := Nat.mod_lt n hc
    obtain ⟨m, hm⟩ : ∃ m, n - offsetAfter op n k = m + 1 := Nat.exists_eq_add_one.mpr (by omega)
    rw [beatAt, if_neg hk, hm]
    exact beatFor_tail (by omega)

/-- After its first beat a command goes on as the command of the elements left. -/
theorem beatAt_succ {op : Op} {n : Nat} (h : 0 < n) (k : Nat) :
    beatAt op n (k + 1) = beatAt op (n - (beatAt op n 0).cells) k := by
  unfold beatAt
  congr 1
  rw [← beatAt, beatAt_cells]
  cases op <;> simp only [chunkLen_bytes, chunkLen_letters] <;> split <;> simp <;> omega

theorem offsetAfter_succ_left {op : Op} {n : Nat} (h : 0 < n) (k : Nat) :
    offsetAfter op n (k + 1) = (beatAt op n 0).cells + offsetAfter op (n - (beatAt op n 0).cells) k := by
  induction k with
  | zero => rw [offsetAfter_succ, offsetAfter_zero, offsetAfter_zero, Nat.add_comm]
  | succ k ih => rw [offsetAfter_succ, ih, beatAt_succ h, offsetAfter_succ, Nat.add_assoc]

theorem stepCount_eq_succ {op : Op} {n : Nat} (h : 0 < n) :
    stepCount op n = stepCount op (n - (beatAt op n 0).cells) + 1 := by
  by_cases hn : chunkLen op ≤ n
  · rw [stepCount_chunk hn, beatAt_zero_of_chunk hn, chunkBeat_cells]
  · obtain ⟨m, rfl⟩ := Nat.exists_eq_add_one.mpr h
    rw [stepCount_tail (not_le.mp hn), beatAt_zero_of_tail (not_le.mp hn), tailBeat_cells, Nat.add_sub_cancel]

/-! ## The cells a beat writes -/

theorem dataCells_getElem? {n j : Nat} (data : BitVec 96) (h : j < n) :
    (dataCells n data)[j]? = some (dataCell data j) := by
  simp [dataCells, h]

/-- A chunk beat carries the cells of the main path of the pseudocode (41_fill_bytes.md R101, 42_fill_letters.md R121). -/
theorem mainCells_eq_dataCells (op : Op) (v : Word64) :
    mainCells Config.byteOrder op v = dataCells (chunkLen op) (dataOf Config.byteOrder (chunkBeat op) v) := by
  cases op with
  | bytes =>
    refine List.map_congr_left fun j hj => ?_
    have hj : j < 8 := List.mem_range.mp hj
    exact (dataCell_setWidth v j (by decide) (by omega)).symm
  | letters => exact List.map_congr_left fun i hi => (dataCell_lchunk v i (List.mem_range.mp hi)).symm

/-- The big-step output starts with the cells of the command's first beat, and goes on as the output of the elements left
from the stepped generator. -/
theorem fill_first_beat {op : Op} {n : Nat} (h : 0 < n) (s : Word64) :
    fill Config.byteOrder op n s =
      (dataCells (beatAt op n 0).cells (dataOf Config.byteOrder (beatAt op n 0) (lcgNext s)) ++
          (fill Config.byteOrder op (n - (beatAt op n 0).cells) (lcgNext s)).1,
        (fill Config.byteOrder op (n - (beatAt op n 0).cells) (lcgNext s)).2) := by
  by_cases hn : chunkLen op ≤ n
  · rw [fill_chunk _ s hn, beatAt_zero_of_chunk hn, chunkBeat_cells, mainCells_eq_dataCells]
  · obtain ⟨m, rfl⟩ := Nat.exists_eq_add_one.mpr h
    rw [fill_tail _ s (not_le.mp hn), beatAt_zero_of_tail (not_le.mp hn), tailBeat_cells,
      tailCell_eq_dataCell Config.byteOrder]
    rfl

/-- Beat number `k` carries the output cells from the offset after `k` beats on. -/
theorem fill_getElem?_beat (op : Op) {n k j : Nat} (seed : Word64) (hk : k < stepCount op n)
    (hj : j < (beatAt op n k).cells) :
    (fill Config.byteOrder op n seed).1[offsetAfter op n k + j]? =
      some (dataCell (dataOf Config.byteOrder (beatAt op n k) (lcgIter (k + 1) seed)) j) := by
  have hn : 0 < n := Nat.pos_of_ne_zero (by rintro rfl; simp [stepCount] at hk)
  induction k generalizing n seed with
  | zero =>
    rw [fill_first_beat hn, offsetAfter_zero, Nat.zero_add,
      List.getElem?_append_left (by simpa [dataCells] using hj), dataCells_getElem? _ hj]
    rfl
  | succ k ih =>
    have hk' : k < stepCount op (n - (beatAt op n 0).cells) := by rw [stepCount_eq_succ hn] at hk; omega
    rw [beatAt_succ hn] at hj ⊢
    rw [fill_first_beat hn, offsetAfter_succ_left hn, Nat.add_assoc, List.getElem?_append_right (by simp [dataCells])]
    have ih := ih (lcgNext seed) hk' hj (Nat.pos_of_ne_zero fun h0 => by simp [h0, stepCount] at hk')
    simpa [dataCells, lcgIter_next] using ih

/-- The new seed is the generator after as many steps as the command has beats (43_command_sequencer.md R149). -/
theorem fill_snd (order : ByteOrder) (op : Op) (n : Nat) (seed : Word64) :
    (fill order op n seed).2 = lcgIter (stepCount op n) seed := by
  induction n using chunk_tail_induction op generalizing seed with
  | zero => simp [fill, fillLoop, stepCount]
  | chunk n h ih => rw [fill_chunk order seed h, stepCount_chunk h, ih, lcgIter_next, lcgIter_succ]
  | tail n h ih => rw [fill_tail order seed h, stepCount_tail h, ih, lcgIter_next, lcgIter_succ]

theorem result_snd (c : Command w) : c.result.2 = lcgIter c.steps c.seed :=
  fill_snd _ _ _ _

/-! ## Moves on the course of a command -/

variable {c : Command w} {prior : Memory} {rs : List Word64} {k : Nat} {s : State w}

theorem Running.advance (h : Running c prior rs k s) : Running c prior rs k s.advance :=
  ⟨h.phase, h.mode, h.count, h.gen, h.off, h.rem, h.cells, h.rsps⟩

theorem Responding.advance (h : Responding c prior rs s) : Responding c prior rs s.advance :=
  ⟨h.phase, h.gen, h.rem, h.off, h.cells, h.rsps⟩

theorem Running.rem_eq (h : Running c prior rs k s) :
    s.rem.toNat = c.size.toNat - offsetAfter c.op c.size.toNat k := by
  have := h.rem
  rw [h.off] at this
  omega

theorem Running.selected (h : Running c prior rs k s) (hk : k < c.steps) :
    s.selected = some (beatAt c.op c.size.toNat k) := by
  rw [selected_of_run h.phase, selectBeat, h.rem_eq, h.mode, beatFor_left hk]

/-- The beat taken writes the next cells of the output and nothing else. -/
theorem Running.performBeat_cells (h : Running c prior rs k s) (hk : k < c.steps) :
    CellsUpTo c prior (s.off.toNat + (beatAt c.op c.size.toNat k).cells)
      (s.performBeat (beatAt c.op c.size.toNat k)).dst := by
  obtain ⟨hbelow, habove⟩ := h.cells
  refine ⟨fun p hp => ?_, fun p hp => ?_⟩ <;> rw [performBeat_read]
  · by_cases hoff : s.off.toNat ≤ p
    · obtain ⟨j, rfl⟩ := Nat.exists_eq_add_of_le hoff
      rw [if_pos ⟨hoff, hp⟩, Nat.add_sub_cancel_left, h.gen, h.off]
      exact (fill_getElem?_beat c.op c.seed hk (by omega)).symm
    · rw [if_neg (by omega)]
      exact hbelow p (by omega)
  · rw [if_neg (by omega)]
    exact habove p (by omega)

theorem Running.performBeat (h : Running c prior rs k s) (hk : k < c.steps) :
    Running c prior rs (k + 1) (s.performBeat (beatAt c.op c.size.toNat k)) := by
  obtain ⟨hrem, hle, -⟩ := selected_rem (h.selected hk)
  have hsize := h.rem
  have hoff := performBeat_off (s := s) (beatAt c.op c.size.toNat k) (by have := c.size.isLt; omega)
  exact {
    phase := by simpa using h.phase
    mode := by simpa using h.mode
    count := hk
    gen := by simp [h.gen]
    off := by rw [hoff, h.off, offsetAfter_succ]
    rem := by omega
    cells := by rw [hoff]; exact h.performBeat_cells hk
    rsps := by simpa using h.rsps }

theorem Running.off_eq_size (h : Running c prior rs c.steps s) : s.off.toNat = c.size.toNat :=
  h.off.trans (offsetAfter_stepCount _ _)

theorem Running.rem_eq_zero (h : Running c prior rs c.steps s) : s.rem = 0 :=
  BitVec.eq_of_toNat_eq (by have := h.rem; have := h.off_eq_size; simp; omega)

theorem Running.endBeats (h : Running c prior rs c.steps s) : Responding c prior rs s.endBeats where
  phase := by simp
  gen := by rw [State.endBeats_S, h.gen, result_snd]
  rem := by simpa using h.rem_eq_zero
  off := by simpa using BitVec.eq_of_toNat_eq h.off_eq_size
  cells := by simpa [h.off_eq_size] using h.cells
  rsps := by simpa using h.rsps

theorem Responding.respond (h : Responding c prior rs s) : Completed c prior rs s.respond where
  phase := by simp
  cells := by simpa using h.cells
  rsps := by simp [h.rsps, h.gen]

/-- A step without reset of a command in RUN, at every width: a stall, a beat, or the end of beats. -/
theorem Running.after_step {p : Inputs w} (h : Running c prior rs k s) (hr : p.reset = false) :
    (k < c.steps ∧ p.outReady = false ∧ Running c prior rs k (stepUnder p s)) ∨
    (k < c.steps ∧ p.outReady = true ∧ Running c prior rs (k + 1) (stepUnder p s)) ∨
    (k = c.steps ∧ Responding c prior rs (stepUnder p s)) := by
  rcases h.count.lt_or_eq with hk | rfl
  · rcases ho : p.outReady with _ | _
    · rw [stepUnder_stalled hr (h.selected hk) ho]
      exact .inl ⟨hk, rfl, h.advance⟩
    · rw [stepUnder_beat hr (h.selected hk) ho]
      exact .inr (.inl ⟨hk, rfl, h.advance.performBeat hk⟩)
  · rw [stepUnder_endBeats hr h.phase h.rem_eq_zero]
    exact .inr (.inr ⟨rfl, h.advance.endBeats⟩)

/-- A step without reset of a command in RESP, at every width: the response waits, or it is taken. -/
theorem Responding.after_step {p : Inputs w} (h : Responding c prior rs s) (hr : p.reset = false) :
    (p.rspReady = false ∧ Responding c prior rs (stepUnder p s)) ∨
    (p.rspReady = true ∧ Completed c prior rs (stepUnder p s)) := by
  rcases ho : p.rspReady with _ | _
  · rw [stepUnder_unanswered hr h.phase ho]
    exact .inl ⟨rfl, h.advance⟩
  · rw [stepUnder_respond hr h.phase ho]
    exact .inr ⟨rfl, h.advance.respond⟩

end Sys2Proof.Machine

/-! PROOFS. The statements of 10_state.md. -/

namespace Sys2Proof.Machine

/-- Settles O41: the invariant is kept by each case of the step. -/
theorem everyStepKeepsTheInvariant : Obligations.EveryStepKeepsTheInvariant := by
  refine ⟨fun s t h hst => ?_, fun w p s h => inv_stepUnder p h⟩
  obtain rfl : stepUnder s.sample s = t := by simpa [step_eq_stepUnder] using hst
  exact inv_stepUnder s.sample h

/-- Settles O43: each move of the sequencer leads from one place on the command's course to the next. -/
theorem commandStaysOnCourse : Obligations.CommandStaysOnCourse :=
  ⟨fun _ _ _ _ s h hr => ⟨_, step_eq_stepUnder s, h.after_step hr⟩,
    fun _ _ _ s h hr => ⟨_, step_eq_stepUnder s, h.after_step hr⟩⟩

/-- Settles O8: of the moves in RUN only the beat writes `S`. -/
theorem everyBeatIsOneStep : Obligations.EveryBeatIsOneStep := by
  intro s hp hr
  refine ⟨_, step_eq_stepUnder s, ?_⟩
  rcases hs : s.selected with _ | k
  · rw [stepUnder_endBeats hr hp ((selected_eq_none_iff hp).mp hs)]
    exact .inr ⟨by simp, by simp⟩
  · rcases ho : s.sample.outReady with _ | _
    · rw [stepUnder_stalled hr hs ho]
      exact .inr ⟨by simp, by simp⟩
    · rw [stepUnder_beat hr hs ho]
      exact .inl ⟨rfl, rfl, s.stepLcg, rfl, by simp⟩

/-- Settles O49: acceptance overwrites every register with the command's fields. -/
theorem noStateCarriesBetweenCommands : Obligations.NoStateCarriesBetweenCommands := by
  rintro c s s' ⟨hp, hr, hc⟩ ⟨hp', hr', hc'⟩
  refine ⟨_, _, step_eq_stepUnder s, step_eq_stepUnder s', ?_⟩
  rw [stepUnder_offered hr hp hc, stepUnder_offered hr' hp' hc']
  simp [SameRegisters]

/-- Settles O36: each signal is a function of `PHASE` and `REM`, and the phases exclude each other. -/
theorem channelSignalsFollowThePhase : Obligations.ChannelSignalsFollowThePhase := by
  intro w s
  refine ⟨s.cmdReady_iff, s.busy_iff, s.outValid_iff, s.rspValid_iff, s.rsp_eq_some_iff, ?_⟩
  rw [s.cmdReady_iff, s.outValid_iff, s.rspValid_iff]
  rcases s.phase with _ | _ | _ <;> simp

/-- Settles O38: the values of the table stand in `State.reset`, and the reset input writes them. -/
theorem resetStateIsTheTable : Obligations.ResetStateIsTheTable := by
  refine ⟨⟨rfl, rfl, rfl, rfl, State.signals_of_idle rfl⟩, fun s hr => ?_⟩
  obtain ⟨hcmd, hout, hrsp⟩ := State.signals_of_idle (resetStep_phase s)
  rw [step_eq_stepUnder, stepUnder_reset hr]
  exact ⟨_, rfl, by simp, by simp, by simp, by simp, hcmd, hout, hrsp, by simp⟩

end Sys2Proof.Machine

/-! SUPPORT. The byte chunk: its cells at both byte orders, the destination read back as a number, and the moves of CORE
as operations that never read the destination (20_memory.md R44, R46, R47). -/

namespace Sys2Proof.Machine

variable {w : Nat}

/-! ## The cells of a byte chunk (R44) -/

theorem dataCell_bchunk_little {j : Nat} (v : Word64) (h : j < 8) : dataCell (dataOf .little .bchunk v) j = byteOf v j :=
  dataCell_setWidth v j (by decide) (by omega)

/-- Eight bytes put together, the first on top, give the `j`-th byte from below back. -/
theorem extractLsb'_eight_bytes (b : Nat → Byte) {j : Nat} (h : j < 8) :
    (b 0 ++ b 1 ++ b 2 ++ b 3 ++ b 4 ++ b 5 ++ b 6 ++ b 7).extractLsb' (8 * j) 8 = b (7 - j) := by
  apply BitVec.eq_of_getLsbD_eq
  intro i hi
  simp only [BitVec.getLsbD_extractLsb', BitVec.getLsbD_append]
  interval_cases j <;> interval_cases i <;> simp

/-- At the big order the bytes of the chunk stand reversed. -/
theorem dataCell_bchunk_big {j : Nat} (v : Word64) (h : j < 8) :
    dataCell (dataOf .big .bchunk v) j = byteOf v (7 - j) :=
  (dataCell_setWidth (bchunk .big v) j (by decide) (by omega)).trans (extractLsb'_eight_bytes (byteOf v) h)

/-- The byte order bears on the byte chunk alone. -/
theorem dataOf_order_irrelevant {k : BeatKind} (h : k ≠ .bchunk) (o o' : ByteOrder) (v : Word64) :
    dataOf o k v = dataOf o' k v := by
  cases k with
  | bchunk => exact absurd rfl h
  | btail | lchunk | ltail => rfl

/-! ## Cells read as a number (R46) -/

/-- A byte of a word as a digit of its value in base 256. -/
theorem byteOf_eq_digit (v : Word64) (j : Nat) : byteOf v j = BitVec.ofNat 8 (v.toNat / 256 ^ j) := by
  rw [byteOf, BitVec.extractLsb', Nat.shiftRight_eq_div_pow, Nat.pow_mul]

/-- Cells that hold the low digits of a number in base 256 read as that number, reduced to as many digits. -/
theorem Memory.readLittle_of_digits {m : Memory} {a n x : Nat}
    (h : ∀ j < n, m.read (a + j) = some (BitVec.ofNat 8 (x / 256 ^ j))) : m.readLittle a n = some (x % 256 ^ n) := by
  induction n generalizing a x with
  | zero => simp [readLittle, Nat.mod_one]
  | succ n ih =>
    have hfirst : m.read a = some (BitVec.ofNat 8 x) := by simpa using h 0 n.succ_pos
    have hrest : m.readLittle (a + 1) n = some (x / 256 % 256 ^ n) := ih fun j hj => by
      rw [Nat.add_assoc, Nat.add_comm 1 j, h (j + 1) (by omega), Nat.div_div_eq_div_mul, ← Nat.pow_succ']
    rw [Nat.pow_succ', Nat.mod_mul]
    simp [readLittle, hfirst, hrest]

/-- Eight cells that hold the bytes of a word read as the word. -/
theorem Memory.readLittle_of_bytes {m : Memory} {a : Nat} {v : Word64}
    (h : ∀ j < 8, m.read (a + j) = some (byteOf v j)) : m.readLittle a 8 = some v.toNat := by
  rw [readLittle_of_digits (x := v.toNat) fun j hj => by rw [h j hj, byteOf_eq_digit]]
  exact congrArg some (Nat.mod_eq_of_lt v.isLt)

theorem selected_bchunk {s : State w} (hp : s.phase = .run) (hm : s.mode = .bytes) (h : 8 ≤ s.rem.toNat) :
    s.selected = some .bchunk := by
  rw [selected_of_run hp, hm]
  exact beatFor_chunk (op := .bytes) h

/-- After a byte chunk its cells hold the bytes of the stepped value. -/
theorem performBeat_bchunk_read (s : State w) {j : Nat} (h : j < 8) :
    (s.performBeat .bchunk).dst.read (s.off.toNat + j) = some (byteOf (lcgNext s.S) j) := by
  rw [performBeat_read, BeatKind.cells_bchunk, if_pos (by omega), Nat.add_sub_cancel_left]
  exact congrArg some (dataCell_bchunk_little _ h)

/-! ## Moves that never read the destination (R47) -/

/-- From destinations `d` and `d'` to `e` and `e'`: each cell is kept in both, or it holds the same in both. -/
def KeptOrSame (d d' e e' : Memory) : Prop :=
  ∀ a, (e.read a = d.read a ∧ e'.read a = d'.read a) ∨ e.read a = e'.read a

theorem KeptOrSame.refl (d d' : Memory) : KeptOrSame d d' d d' :=
  fun _ => .inl ⟨rfl, rfl⟩

theorem KeptOrSame.trans {d d' e e' f f' : Memory} (h : KeptOrSame d d' e e') (h' : KeptOrSame e e' f f') :
    KeptOrSame d d' f f' := fun a => by
  rcases h' a with ⟨hf, hf'⟩ | hsame
  · rw [hf, hf']
    exact h a
  · exact .inr hsame

/-- The same beat over two destinations writes the same cells. -/
theorem keptOrSame_memWrite (d d' : Memory) (off n : Nat) (data : BitVec 96) :
    KeptOrSame d d' (d.memWrite off n data) (d'.memWrite off n data) := fun a => by
  simp only [Memory.read_memWrite]
  by_cases ha : off ≤ a ∧ a < off + n <;> simp [ha]

/-- With another content of the destination the move leads to the same state but for the destination, where each cell is
kept or written with the same value. -/
def NeverReadsDst (f : State w → State w) : Prop :=
  ∀ (s : State w) (m : Memory), ∃ m', f { s with dst := m } = { f s with dst := m' } ∧ KeptOrSame s.dst m (f s).dst m'

namespace NeverReadsDst

theorem comp {f g : State w → State w} (hg : NeverReadsDst g) (hf : NeverReadsDst f) :
    NeverReadsDst fun s => g (f s) := fun s m => by
  obtain ⟨m₁, ef, hf⟩ := hf s m
  obtain ⟨m₂, eg, hg⟩ := hg (f s) m₁
  exact ⟨m₂, (congrArg g ef).trans eg, hf.trans hg⟩

/-- A choice between two moves by a condition on the registers and the environment. -/
theorem ite {f g : State w → State w} {P : State w → Prop} [DecidablePred P]
    (hP : ∀ s m, P { s with dst := m } ↔ P s) (hf : NeverReadsDst f) (hg : NeverReadsDst g) :
    NeverReadsDst fun s => if P s then f s else g s := fun s m => by
  by_cases h : P s
  · simpa only [hP, h, if_true] using hf s m
  · simpa only [hP, h, if_false] using hg s m

theorem id : NeverReadsDst fun s : State w => s := fun _ m => ⟨m, rfl, .refl _ _⟩

theorem advance : NeverReadsDst (State.advance (w := w)) := fun _ m => ⟨m, rfl, .refl _ _⟩

theorem endBeats : NeverReadsDst (State.endBeats (w := w)) := fun _ m => ⟨m, rfl, .refl _ _⟩

theorem respond : NeverReadsDst (State.respond (w := w)) := fun _ m => ⟨m, rfl, .refl _ _⟩

theorem resetStep : NeverReadsDst (resetStep (w := w)) := fun _ m => ⟨m, rfl, .refl _ _⟩

theorem accept (op : Op) (size : Size w) (seed : Word64) : NeverReadsDst (State.accept op size seed) :=
  fun _ m => ⟨m, rfl, .refl _ _⟩

theorem performBeat (k : BeatKind) : NeverReadsDst (State.performBeat (w := w) k) :=
  fun _ _ => ⟨_, rfl, keptOrSame_memWrite _ _ _ _ _⟩

/-- The platform's binding replaces the destination by the same one. -/
theorem bindDst (b : Option (List Host.Cell)) : NeverReadsDst (State.bindDst (w := w) b) := fun s m => by
  by_cases hp : s.phase = .idle
  · rcases b with _ | cells
    · simpa using id s m
    · exact ⟨Memory.ofCells cells, by simp [State.bindDst, hp], fun _ => .inr (by rw [s.bindDst_idle cells hp])⟩
  · rw [s.bindDst_busy b hp, State.bindDst_busy { s with dst := m } b hp]
    exact id s m

theorem taking (p : Inputs w) : NeverReadsDst (State.taking p) :=
  (bindDst p.bind).comp advance

theorem fire (f : Firing w) : NeverReadsDst (State.fire f) := by
  cases f with
  | command c => exact ite (fun _ _ => Iff.rfl) (accept c.op c.size c.seed) id
  | beat k => exact ite (fun _ _ => Iff.rfl) (performBeat k) id

theorem betweenOps (p : Inputs w) : NeverReadsDst fun s => betweenOps s p := by
  rintro ⟨phase, mode, S, rem, off, dst, responses, inputs, draws⟩
  cases phase with
  | idle => exact id _
  | run => exact ite (P := fun s => s.rem = 0) (fun _ _ => Iff.rfl) endBeats id _
  | resp => exact ite (P := fun _ => p.rspReady = true) (fun _ _ => Iff.rfl) respond id _

/-- The whole step: what fires is chosen by the registers and the sample alone. -/
theorem stepUnder (p : Inputs w) : NeverReadsDst (stepUnder p) := fun s m => by
  by_cases hr : p.reset = true
  · rw [stepUnder_reset hr, stepUnder_reset hr]
    exact resetStep s m
  · obtain ⟨m₁, htaking, -⟩ := taking p s m
    have hfetch : fetch (State.taking p { s with dst := m }) p = fetch (s.taking p) p := by rw [htaking]; rfl
    simp only [Machine.stepUnder, hr, hfetch]
    rcases fetch (s.taking p) p with _ | f
    · exact (betweenOps p).comp (taking p) s m
    · exact (fire f).comp (taking p) s m

end NeverReadsDst

end Sys2Proof.Machine

/-! PROOFS. The statements of 20_memory.md. -/

namespace Sys2Proof.Machine

/-- Settles O14: the chunk holds the bytes of the value in order at little, reversed at big. -/
theorem byteOrderOfAChunk : Obligations.ByteOrderOfAChunk := by
  refine ⟨fun v j hj => ⟨dataCell_bchunk_little v hj, ?_⟩, fun v k hk => dataOf_order_irrelevant hk _ _ v, rfl⟩
  rw [dataCell_bchunk_big v hj, byteOf, Nat.mul_sub]

/-- Settles O26: the cells of the beat hold the digits of the stepped value in base 256. -/
theorem chunkReadsBackAsTheSteppedValue : Obligations.ChunkReadsBackAsTheSteppedValue := by
  intro s t hp hm hrem ht
  have hbeat : exec .bchunk s = .next (s.performBeat .bchunk) :=
    (exec_beat .bchunk s).trans (congrArg _ (runBeat_selected (selected_bchunk hp hm hrem)))
  obtain rfl : s.performBeat .bchunk = t := by simpa [hbeat] using ht
  exact Memory.readLittle_of_bytes fun j hj => performBeat_bchunk_read s hj

/-- Settles O50: the signals and the transfer are functions of the registers and the sample, and the step never reads the
destination. -/
theorem destinationIsNeverRead : Obligations.DestinationIsNeverRead := by
  intro s m
  obtain ⟨m', hstep, hcells⟩ := NeverReadsDst.stepUnder s.sample s m
  have hstep' : step { s with dst := m } = .next { stepUnder s.sample s with dst := m' } :=
    (step_eq_stepUnder _).trans (congrArg _ hstep)
  exact ⟨rfl, rfl, rfl, _, _, step_eq_stepUnder s, hstep', ⟨rfl, rfl, rfl, rfl, rfl⟩, ⟨rfl, rfl, rfl⟩, hcells⟩

end Sys2Proof.Machine

/-! SUPPORT. The words of CORE: a field's bits in the word that holds it, the command word and the beat word packed and
read at every width, and the instruction that a command spells (30_encoding.md R61, R62, R65). -/

namespace Sys2Proof

/-- A field read from a word has the word's bits from its position on. -/
theorem getLsbD_of_field {m n i j : Nat} {x : BitVec m} {f : BitVec n} (h : x.extractLsb' i n = f) (hj : j < n) :
    x.getLsbD (i + j) = f.getLsbD j := by
  rw [← h, BitVec.getLsbD_extractLsb', decide_eq_true hj, Bool.true_and]

/-! ## The command word -/

@[simp] theorem toBit_ofBit (b : BitVec 1) : (Op.ofBit b).toBit = b := by
  revert b
  decide

theorem toBit_getLsbD_zero (op : Op) : op.toBit.getLsbD 0 = decide (op = .letters) := by
  cases op <;> rfl

variable {w : Nat}

theorem opBit_packCmd (op : Op) (size : BitVec w) (seed : Word64) :
    (packCmd w op size seed).extractLsb' (64 + w) 1 = op.toBit := by
  rw [packCmd, BitVec.extractLsb'_append_eq_of_le (by omega), Nat.add_sub_cancel_left,
    BitVec.extractLsb'_append_eq_left]

/-- The three fields of a command word stand side by side and fill it. -/
@[simp] theorem packCmd_fields (x : CmdWord w) : packCmd w (cmdOp w x) (cmdSize w x) (cmdSeed w x) = x := by
  rw [packCmd, cmdOp, toBit_ofBit, cmdSize, cmdSeed, BitVec.extractLsb'_append_extractLsb'_eq_extractLsb' rfl,
    BitVec.extractLsb'_append_extractLsb']

@[simp] theorem word_commandOf (x : CmdWord w) : (commandOf x).word = x :=
  packCmd_fields x

/-- The selector of a command word is its top bit. -/
theorem cmdOp_eq (x : CmdWord w) : cmdOp w x = if x.getLsbD (64 + w) then .letters else .bytes := by
  have hbit : x.getLsbD (64 + w) = decide (cmdOp w x = .letters) :=
    (getLsbD_of_field (toBit_ofBit _).symm one_pos).trans (toBit_getLsbD_zero _)
  rw [hbit]
  cases cmdOp w x <;> rfl

/-! ## Commands as instructions -/

theorem decodeCmd_word (c : Command) : decodeCmd c.word = c.instr :=
  congrArg Command.instr (Machine.commandOf_word c)

theorem encode_instr (c : Command) : encode c.instr = some c.word := by
  obtain ⟨op, size, seed⟩ := c
  cases op <;> rfl

theorem wellFormed_instr (c : Command) : c.instr.wellFormed = true := by
  obtain ⟨op, size, seed⟩ := c
  cases op <;> rfl

/-- The well-formed instructions are the commands. -/
theorem exists_command_of_wellFormed {i : Instr} (h : i.wellFormed = true) : ∃ c : Command, c.instr = i := by
  cases i with
  | fillBytes size seed => exact ⟨⟨.bytes, size, seed⟩, rfl⟩
  | fillLetters size seed => exact ⟨⟨.letters, size, seed⟩, rfl⟩
  | step | bchunk | btail | lchunk | ltail => cases h

theorem encode_isSome (i : Instr) : (encode i).isSome = i.wellFormed := by
  cases i with
  | fillBytes size seed => exact Laws.HasWord.fillBytes size seed
  | fillLetters size seed => exact Laws.HasWord.fillLetters size seed
  | step => exact Laws.HasWord.step
  | bchunk => exact Laws.HasWord.bchunk
  | btail => exact Laws.HasWord.btail
  | lchunk => exact Laws.HasWord.lchunk
  | ltail => exact Laws.HasWord.ltail

/-! ## The beat word -/

@[simp] theorem beatData_packBeat (off : BitVec w) (n : BitVec 4) (data : BitVec 96) :
    beatData w (packBeat w off n data) = data :=
  BitVec.extractLsb'_append_eq_right

@[simp] theorem beatN_packBeat (off : BitVec w) (n : BitVec 4) (data : BitVec 96) :
    beatN w (packBeat w off n data) = n := by
  rw [beatN, packBeat, BitVec.extractLsb'_append_eq_of_le le_rfl]
  exact BitVec.extractLsb'_append_eq_right

@[simp] theorem beatOff_packBeat (off : BitVec w) (n : BitVec 4) (data : BitVec 96) :
    beatOff w (packBeat w off n data) = off := by
  rw [beatOff, packBeat, BitVec.extractLsb'_append_eq_of_le (by decide)]
  exact BitVec.extractLsb'_append_eq_left

end Sys2Proof

/-! SUPPORT. The beat that CORE presents: its kind from the registers, its cell count and its data
(30_encoding.md R65, R66, 43_command_sequencer.md R142). -/

namespace Sys2Proof.Machine

variable {w : Nat}

/-- The beat on OUT is the one of the selected kind. -/
theorem State.out_eq_some_iff {s : State w} {b : Beat w} : s.out = some b ↔ ∃ k, s.selected = some k ∧ s.beatOf k = b :=
  Option.map_eq_some_iff

/-- A beat has a chunk's cells while a whole chunk is left, and one cell after. -/
theorem beatFor_cells_eq {op : Op} {n : Nat} {k : BeatKind} (h : beatFor op n = some k) :
    k.cells = if chunkLen op ≤ n then chunkLen op else 1 := by
  split
  next hc =>
    obtain rfl : chunkBeat op = k := Option.some.inj ((beatFor_chunk hc).symm.trans h)
    exact chunkBeat_cells op
  next hc =>
    obtain ⟨m, rfl⟩ : ∃ m, n = m + 1 := Nat.exists_eq_add_one.mpr (by have := beatFor_cells h; omega)
    obtain rfl : tailBeat op = k := Option.some.inj ((beatFor_tail (not_le.mp hc)).symm.trans h)
    exact tailBeat_cells op

theorem getLsbD_setWidth_above {n j : Nat} (x : BitVec n) (m : Nat) (h : n ≤ j) : (x.setWidth m).getLsbD j = false := by
  rw [BitVec.getLsbD_setWidth, BitVec.getLsbD_of_ge x j h, Bool.and_false]

/-- The data bits above a beat's cells are zero. -/
theorem dataOf_getLsbD_above (order : ByteOrder) (k : BeatKind) (v : Word64) {j : Nat} (h : 8 * k.cells ≤ j) :
    (dataOf order k v).getLsbD j = false := by
  cases k with
  | lchunk => exact BitVec.getLsbD_of_ge _ _ h
  | bchunk | btail | ltail => exact getLsbD_setWidth_above _ 96 h

section Presented

variable {s : State w} {b : Beat w} (hb : s.out = some b)
include hb

theorem State.out_n : b.n = 1 ∨ b.n = 8 ∨ b.n = 12 := by
  obtain ⟨k, -, rfl⟩ := out_eq_some_iff.mp hb
  cases k with
  | btail | ltail => exact .inl rfl
  | bchunk => exact .inr (.inl rfl)
  | lchunk => exact .inr (.inr rfl)

theorem State.out_data_above {j : Nat} (h : 8 * b.n.toNat ≤ j) : b.data.getLsbD j = false := by
  obtain ⟨k, -, rfl⟩ := out_eq_some_iff.mp hb
  rw [beatOf_n] at h
  exact dataOf_getLsbD_above _ k _ h

/-- The beat presented, when the sink takes it, writes its cells from its offset on and leaves every other cell. -/
theorem stepUnder_out_read {p : Inputs w} (hr : p.reset = false) (ho : p.outReady = true) (x : Nat) :
    (stepUnder p s).dst.read x =
      if b.off.toNat ≤ x ∧ x < b.off.toNat + b.n.toNat then some (dataCell b.data (x - b.off.toNat))
      else s.dst.read x := by
  obtain ⟨k, hs, rfl⟩ := State.out_eq_some_iff.mp hb
  rw [stepUnder_beat hr hs ho, performBeat_read, State.beatOf_n]
  rfl

end Presented

end Sys2Proof.Machine

/-! SUPPORT. Programs: the commands that a program resolves to, line by line (30_encoding.md R71, R72). -/

namespace Sys2Proof.Machine

variable {w : Nat}

/-- The command a line issues when its seed has the given value. -/
def Line.command (l : Line w) (seed : Word64) : Command w :=
  { op := l.op, size := l.size, seed := seed }

theorem SeedOperand.isBound_iff (b : Bindings) (sd : SeedOperand) :
    sd.isBound (b.map Prod.fst) = true ↔ ∃ seed, sd.value b = some seed := by
  cases sd with
  | literal s => simp [isBound, value]
  | name n =>
    rw [value, ← Option.isSome_iff_exists, List.lookup_isSome_iff]
    simp [isBound]

namespace Program

/-- The first line of a program issues its command, and the other lines go on with the command's new seed bound. -/
theorem commandsFrom_cons_eq_some_iff {b : Bindings} {l : Line w} {p : Program w} {cs : List (Command w)} :
    commandsFrom b (l :: p) = some cs ↔
      ∃ seed rest, l.seed.value b = some seed ∧
        commandsFrom ((l.result, (l.command seed).result.2) :: b) p = some rest ∧ l.command seed :: rest = cs := by
  rcases hv : l.seed.value b with _ | seed
  · simp [commandsFrom, hv]
  · rcases hr : commandsFrom ((l.result, (l.command seed).result.2) :: b) p with _ | rest <;>
      simp only [Line.command] at hr ⊢ <;> simp [commandsFrom, hv, hr]

theorem wellFormedFrom_iff (b : Bindings) (p : Program w) :
    wellFormedFrom (b.map Prod.fst) p = true ↔ ∃ cs, commandsFrom b p = some cs := by
  induction p generalizing b with
  | nil => simp [wellFormedFrom, commandsFrom]
  | cons l p ih =>
    simp only [wellFormedFrom, Bool.and_eq_true, SeedOperand.isBound_iff, commandsFrom_cons_eq_some_iff]
    constructor
    · rintro ⟨⟨seed, hv⟩, hp⟩
      obtain ⟨rest, hr⟩ := (ih ((l.result, (l.command seed).result.2) :: b)).mp hp
      exact ⟨_, seed, rest, hv, hr, rfl⟩
    · rintro ⟨-, seed, rest, hv, hr, -⟩
      exact ⟨⟨seed, hv⟩, (ih _).mpr ⟨rest, hr⟩⟩

/-- The commands of a program have the selectors and sizes of its lines. -/
theorem map_of_commandsFrom {b : Bindings} {p : Program w} {cs : List (Command w)} (h : commandsFrom b p = some cs) :
    cs.map Command.op = p.map Line.op ∧ cs.map Command.size = p.map Line.size := by
  induction p generalizing b cs with
  | nil =>
    obtain rfl : [] = cs := Option.some.inj h
    exact ⟨rfl, rfl⟩
  | cons l p ih =>
    obtain ⟨seed, rest, -, hr, rfl⟩ := commandsFrom_cons_eq_some_iff.mp h
    obtain ⟨hop, hsize⟩ := ih hr
    exact ⟨congrArg (l.op :: ·) hop, congrArg (l.size :: ·) hsize⟩

end Program

end Sys2Proof.Machine

/-! SUPPORT. The machine on a listed schedule of samples: one command in a willing environment, and commands one after
another (43_command_sequencer.md R147, R149, R158). -/

namespace Sys2Proof

theorem Inputs.isWilling_iff {w : Nat} {p : Inputs w} :
    p.isWilling = true ↔ p.reset = false ∧ p.outReady = true ∧ p.rspReady = true := by
  simp [isWilling, and_assoc]

theorem Command.schedule_tail_willing {w : Nat} (c : Command w) : ∀ p ∈ c.schedule.tail, p.isWilling = true := by
  simp [schedule, Inputs.isWilling, Inputs.willing]

end Sys2Proof

namespace Sys2Proof.Machine

variable {w : Nat}

/-- The state after one step for each sample of a list, in order. -/
def stepsUnder : List (Inputs w) → State w → State w
  | [], s => s
  | p :: ps, s => stepsUnder ps (stepUnder p s)

theorem stepsUnder_append (ps qs : List (Inputs w)) (s : State w) :
    stepsUnder (ps ++ qs) s = stepsUnder qs (stepsUnder ps s) := by
  induction ps generalizing s with
  | nil => rfl
  | cons p ps ih => exact ih _

theorem stepUnder_inputs (p : Inputs w) (s : State w) : (stepUnder p s).inputs = s.inputs.tail := by
  rcases stepUnder_cases p s with ⟨-, e⟩ |
    ⟨-, ⟨x, -, -, e⟩ | ⟨-, -, e⟩ | ⟨k, -, -, -, e⟩ | ⟨k, -, -, -, e⟩ | ⟨-, -, e⟩ | ⟨-, -, e⟩ | ⟨-, -, e⟩⟩ <;> simp [e]

/-- A run of the machine uses up the samples that its schedule lists first. -/
theorem runs_stepsUnder {ps more : List Inputs} {s : State} (h : s.inputs = ps ++ more) :
    Runs ps.length s (stepsUnder ps s) ∧ (stepsUnder ps s).inputs = more := by
  induction ps generalizing s with
  | nil => exact ⟨runs_zero s, h⟩
  | cons p ps ih =>
    have hstep : step s = .next (stepUnder p s) := by rw [step_eq_stepUnder, s.sample_cons p _ h]
    obtain ⟨hruns, hinputs⟩ := ih (s := stepUnder p s) (by rw [stepUnder_inputs, h]; rfl)
    exact ⟨runs_succ hstep hruns, hinputs⟩

variable {c : Command w} {s : State w}

theorem running_accept (c : Command w) (s : State w) :
    Running c s.dst s.responses 0 (s.accept c.op c.size c.seed) where
  phase := by simp
  mode := by simp
  count := Nat.zero_le _
  gen := by simp
  off := by simp [offsetAfter_zero]
  rem := by simp
  cells := by simp [CellsUpTo]
  rsps := by simp

/-- A willing environment takes every beat left, then the end of beats, then the response. -/
theorem Running.stepsUnder_willing {prior : Memory} {rs : List Word64} {k : Nat} {ps : List (Inputs w)}
    (h : Running c prior rs k s) (hlen : ps.length + k = c.steps + 2) (hw : ∀ p ∈ ps, p.isWilling = true) :
    Completed c prior rs (stepsUnder ps s) := by
  induction ps generalizing k s with
  | nil => exact absurd h.count (by simp at hlen; omega)
  | cons p ps ih =>
    obtain ⟨hp, hps⟩ := List.forall_mem_cons.mp hw
    obtain ⟨hr, ho, -⟩ := Inputs.isWilling_iff.mp hp
    rw [List.length_cons] at hlen
    rcases h.after_step hr with ⟨-, hno, -⟩ | ⟨-, -, hrun⟩ | ⟨rfl, hresp⟩
    · simp [ho] at hno
    · exact ih hrun (by omega) hps
    · obtain ⟨q, rfl⟩ := List.length_eq_one_iff.mp (show ps.length = 1 by omega)
      obtain ⟨hr, -, ho⟩ := Inputs.isWilling_iff.mp (hps q (by simp))
      rcases hresp.after_step hr with ⟨hno, -⟩ | ⟨-, hdone⟩
      · simp [ho] at hno
      · exact hdone

/-- From IDLE the schedule of a command completes it. -/
theorem completed_schedule (hp : s.phase = .idle) :
    Completed c (s.taking (Inputs.offer c.word)).dst s.responses (stepsUnder c.schedule s) := by
  have hfirst := stepUnder_offered (p := Inputs.offer c.word) rfl hp rfl
  have hrun := running_accept c (s.taking (Inputs.offer c.word))
  rw [← hfirst, State.taking_responses] at hrun
  exact hrun.stepsUnder_willing (by simp) c.schedule_tail_willing

/-- Commands issued one after another are completed one after another. -/
theorem stepsUnder_scheduleAll (cs : List (Command w)) (hp : s.phase = .idle) :
    (stepsUnder (scheduleAll cs) s).phase = .idle ∧
      (stepsUnder (scheduleAll cs) s).responses = s.responses ++ cs.map fun c => c.result.2 := by
  induction cs generalizing s with
  | nil => exact ⟨hp, by simp [scheduleAll, stepsUnder]⟩
  | cons c cs ih =>
    have hdone := completed_schedule (c := c) hp
    obtain ⟨hidle, hrsps⟩ := ih hdone.phase
    rw [scheduleAll, List.flatMap_cons, stepsUnder_append]
    exact ⟨hidle, by rw [← scheduleAll, hrsps, hdone.rsps]; simp⟩

end Sys2Proof.Machine

/-! PROOFS. The statements of 30_encoding.md. -/

namespace Sys2Proof.Machine

/-- Settles O1: the well-formed instructions are the commands, and a command and its word determine each other. -/
theorem decodeAndEncodeAgree : Obligations.DecodeAndEncodeAgree := by
  refine ⟨fun i hi => ?_, fun x => ⟨wellFormed_instr _, ?_⟩, fun i hi => ?_⟩
  · obtain ⟨c, rfl⟩ := exists_command_of_wellFormed hi
    exact ⟨c.word, encode_instr c, decodeCmd_word c⟩
  · rw [decodeCmd, encode_instr, word_commandOf]
  · rw [← Option.not_isSome_iff_eq_none, encode_isSome, hi]
    exact Bool.false_ne_true

/-- Settles O60: every command of the program is completed before the next is offered. -/
theorem programReturnsItsSeedsInOrder : Obligations.ProgramReturnsItsSeedsInOrder := by
  intro p cs s more _ hp hinputs
  obtain ⟨hruns, hmore⟩ := runs_stepsUnder hinputs
  obtain ⟨hidle, hrsps⟩ := stepsUnder_scheduleAll cs hp
  exact ⟨_, hruns, hidle, hmore, hrsps⟩

/-- Settles O2: each field's bits are those of the field read back. -/
theorem commandWordLayoutAtEveryWidth : Obligations.CommandWordLayoutAtEveryWidth := by
  refine fun w => ⟨fun op size seed => ⟨fun j hj => ?_, fun j hj => ?_, ?_, cmdSeed_packCmd op size seed,
    cmdSize_packCmd op size seed, cmdOp_packCmd op size seed⟩, packCmd_fields⟩
  · simpa using getLsbD_of_field (cmdSeed_packCmd op size seed) hj
  · exact getLsbD_of_field (cmdSize_packCmd op size seed) hj
  · exact (getLsbD_of_field (opBit_packCmd op size seed) one_pos).trans (toBit_getLsbD_zero op)

/-- Settles O5: the fields read back give the layout, and the beat presented is the one of the selected kind. -/
theorem beatWordLayoutAtEveryWidth : Obligations.BeatWordLayoutAtEveryWidth := by
  refine ⟨fun w off n data => ⟨fun j hj => ?_, fun j hj => ?_, fun j hj => ?_, beatOff_packBeat off n data,
    beatN_packBeat off n data, beatData_packBeat off n data⟩, fun s b hb => ⟨State.out_n hb, fun j hj => State.out_data_above hb hj⟩,
    fun s b hb hr ho => ⟨_, step_eq_stepUnder s, fun j hj => ?_, fun a ha => ?_⟩⟩
  · simpa using getLsbD_of_field (beatData_packBeat off n data) hj
  · exact getLsbD_of_field (beatN_packBeat off n data) hj
  · exact getLsbD_of_field (beatOff_packBeat off n data) hj
  · rw [stepUnder_out_read hb hr ho, if_pos (by omega), Nat.add_sub_cancel_left]
    rfl
  · rw [stepUnder_out_read hb hr ho, if_neg (by omega)]

/-- Settles O6: the cell count of the beat follows from `MODE` and the elements left. -/
theorem beatKindFollowsFromTheCommand : Obligations.BeatKindFollowsFromTheCommand := by
  intro w s b hb
  obtain ⟨k, hs, rfl⟩ := State.out_eq_some_iff.mp hb
  have hcells := beatFor_cells_eq (selected_some hs).2
  simp only [BitVec.toNat_eq, State.beatOf_n, BitVec.reduceToNat]
  cases hm : s.mode with
  | bytes =>
    rw [hm, chunkLen_bytes] at hcells
    simp only [reduceCtorEq, true_and, false_and, iff_false, or_false]
    split at hcells <;> omega
  | letters =>
    rw [hm, chunkLen_letters] at hcells
    simp only [reduceCtorEq, true_and, false_and, iff_false, false_or]
    split at hcells <;> omega

/-- Settles O59: the names bound are those with a value, line by line. -/
theorem wellFormedProgramsHaveCommands : Obligations.WellFormedProgramsHaveCommands := by
  refine fun p => ⟨Program.wellFormedFrom_iff [] p, fun cs h => ?_⟩
  obtain ⟨hop, hsize⟩ := Program.map_of_commandsFrom h
  exact ⟨by simpa using congrArg List.length hop, hop, hsize⟩

/-- Settles O3: the selector is the top bit, and the operands are the other fields. -/
theorem opBitSelectsTheCommand : Obligations.OpBitSelectsTheCommand := by
  intro x
  have hop : cmdOp 64 x = if x.getLsbD 128 then .letters else .bytes := cmdOp_eq x
  refine ⟨fun h => ?_, fun h => ?_⟩
  · rw [decodeCmd, commandOf, hop, h]
    rfl
  · rw [decodeCmd, commandOf, hop, h]
    rfl

/-- Settles O58: the reader run on the three lines. -/
theorem writtenLinesAreRead : Obligations.WrittenLinesAreRead :=
  ⟨by decide, by decide⟩

end Sys2Proof.Machine

/-! SUPPORT. The generator as arithmetic: its step reduced to the low bits, its inverse, its iterates in closed form, the
powers of two in that closed form, and the letter that a reduced value gives (40_lcg_step.md R82 to R91). -/

namespace Sys2Proof.Machine

/-! ## The step on the low bits (R83) -/

/-- The low bits of the stepped value depend on the low bits of the state alone. -/
theorem lcgNext_toNat_mod_two_pow {k : Nat} (s : Word64) (hk : k ≤ 64) :
    (lcgNext s).toNat % 2 ^ k = ((s.toNat % 2 ^ k) * (1664525 % 2 ^ k) + 1013904223 % 2 ^ k) % 2 ^ k := by
  rw [lcgNext_toNat, Nat.mod_mod_of_dvd _ (Nat.pow_dvd_pow 2 hk)]
  simp [Nat.add_mod, Nat.mul_mod]

/-- The lowest bit flips at every step, since `A` and `C` are odd. -/
theorem lcgNext_toNat_mod_two (s : Word64) : (lcgNext s).toNat % 2 = (s.toNat % 2 + 1) % 2 := by
  simpa using lcgNext_toNat_mod_two_pow (k := 1) s (by decide)

/-- No state is its own successor (R85). -/
theorem lcgNext_ne_self (s : Word64) : lcgNext s ≠ s := fun h => by
  have hbit := lcgNext_toNat_mod_two s
  rw [h] at hbit
  omega

theorem btail_toNat (v : Word64) : (btail v).toNat = v.toNat % 2 ^ 8 := by
  simp [btail]

/-! ## The step undone (R84) -/

theorem lcgPrev_eq (t : Word64) : lcgPrev t = (t - 1013904223#64) * 0xEEA56631FEE058C5#64 := rfl

/-- `A` and `A_INV` cancel in the ring of 64-bit words. -/
theorem mul_A_mul_AInv (x : Word64) : x * 1664525#64 * 0xEEA56631FEE058C5#64 = x := by
  rw [BitVec.mul_assoc, show 1664525#64 * 0xEEA56631FEE058C5#64 = 1#64 by decide, BitVec.mul_one]

theorem lcgPrev_lcgNext (s : Word64) : lcgPrev (lcgNext s) = s := by
  rw [lcgPrev_eq, lcgNext_eq, BitVec.add_sub_cancel, mul_A_mul_AInv]

theorem lcgNext_lcgPrev (t : Word64) : lcgNext (lcgPrev t) = t := by
  rw [lcgPrev_eq, lcgNext_eq, BitVec.mul_assoc, BitVec.mul_comm 0xEEA56631FEE058C5#64, ← BitVec.mul_assoc, mul_A_mul_AInv,
    BitVec.sub_add_cancel]

/-! ## Many steps in closed form (R86) -/

/-- One more step on the closed form, for any multiplier `a` and increment `c`. -/
theorem closedForm_succ (a c k s : Nat) :
    (a ^ k * s + c * ∑ i ∈ Finset.range k, a ^ i) * a + c =
      a ^ (k + 1) * s + c * ∑ i ∈ Finset.range (k + 1), a ^ i := by
  rw [geom_sum_succ]
  ring

theorem lcgIter_toNat (k : Nat) (s : Word64) :
    (lcgIter k s).toNat =
      (1664525 ^ k * s.toNat + 1013904223 * ∑ i ∈ Finset.range k, 1664525 ^ i) % 2 ^ 64 := by
  induction k with
  | zero => simp [Nat.mod_eq_of_lt s.isLt]
  | succ k ih =>
    rw [lcgIter_succ, lcgNext_toNat, ih, Nat.add_mod, Nat.mod_mul_mod, ← Nat.add_mod, closedForm_succ]

/-- The closed form for a multiplier `b + 1` is `s` and a multiple of the geometric sum, since the power is `b` times the
sum, and 1. -/
theorem closedForm_eq_self_add (b c k s : Nat) :
    (b + 1) ^ k * s + c * ∑ i ∈ Finset.range k, (b + 1) ^ i = s + (∑ i ∈ Finset.range k, (b + 1) ^ i) * (b * s + c) := by
  rw [← geom_sum_mul_add b k]
  ring

/-! ## Powers of two in the closed form (R88) -/

/-- A geometric sum over a base that is 1 modulo 4 has the powers of two of its number of terms: the exponent of 2 in
`(b + 1) ^ n - 1` is that of `b` and that of `n` together. -/
theorem two_pow_dvd_geomSum_iff {b : Nat} (hb : 4 ∣ b) (hb0 : b ≠ 0) (k n : Nat) :
    2 ^ k ∣ ∑ i ∈ Finset.range n, (b + 1) ^ i ↔ 2 ^ k ∣ n := by
  have hlift := Int.two_pow_sub_pow' (x := b + 1) (y := 1) n (by simpa using mod_cast hb) (by omega)
  rw [one_pow, ← geom_sum_mul_add, add_sub_cancel_right, add_sub_cancel_right, emultiplicity_mul Int.prime_two,
    add_comm] at hlift
  have hfin : emultiplicity (2 : ℤ) b ≠ ⊤ := by
    rw [← finiteMultiplicity_iff_emultiplicity_ne_top, Int.finiteMultiplicity_iff]
    exact ⟨by decide, mod_cast hb0⟩
  have hiff := emultiplicity_eq_emultiplicity_iff.mp (WithTop.add_left_cancel hfin hlift) k
  exact_mod_cast hiff

/-- The low `k` bits return after `n` steps exactly when `2 ^ k` divides the sum of the closed form: the factor beside it
is odd. -/
theorem lcgIter_toNat_mod_eq_iff {k : Nat} (n : Nat) (s : Word64) (hk : k ≤ 64) :
    (lcgIter n s).toNat % 2 ^ k = s.toNat % 2 ^ k ↔ 2 ^ k ∣ ∑ i ∈ Finset.range n, 1664525 ^ i := by
  have hodd : Nat.Coprime (2 ^ k) (1664524 * s.toNat + 1013904223) :=
    Nat.Coprime.pow_left k (Nat.coprime_two_left.mpr (Nat.odd_iff.mpr (by omega)))
  rw [lcgIter_toNat, Nat.mod_mod_of_dvd _ (Nat.pow_dvd_pow 2 hk), closedForm_eq_self_add 1664524]
  exact Nat.add_modEq_left_iff.trans hodd.dvd_mul_right

/-! ## Letters (R90, R91) -/

theorem letterCode_toNat {r : Nat} (h : r < 26) : (letterCode r).toNat = 0x61 + r := by
  rw [letterCode, BitVec.toNat_ofNat, Nat.mod_eq_of_lt (by simp only [Config.BASE]; omega)]

theorem letterOfField_toNat (f : BitVec 5) : (letterOfField f).toNat = 0x61 + f.toNat % 26 :=
  letterCode_toNat (Nat.mod_lt _ (by decide))

theorem ltail_toNat (v : Word64) : (ltail v).toNat = 0x61 + v.toNat % 26 :=
  letterCode_toNat (Nat.mod_lt _ (by decide))

end Sys2Proof.Machine

/-! PROOFS. The statements of 40_lcg_step.md. -/

namespace Sys2Proof.Machine

/-- Settles O13: `n` steps add an odd multiple of a geometric sum to `s`, and the sum has the powers of two of `n`. -/
theorem lowBitsHaveFullPeriod : Obligations.LowBitsHaveFullPeriod := fun k n s hk =>
  (lcgIter_toNat_mod_eq_iff n s hk).trans (two_pow_dvd_geomSum_iff (b := 1664524) (by decide) (by decide) k n)

/-- Settles O9: the step is reduced modulo `2 ^ 64`, and so modulo every lower power of two. -/
theorem lowBitsDependOnLowBits : Obligations.LowBitsDependOnLowBits := by
  refine ⟨fun s => ⟨by have := s.isLt; omega, fun j hj => ?_⟩, fun k s _ hk => lcgNext_toNat_mod_two_pow s hk, fun s => ?_⟩
  · rw [← BitVec.testBit_toNat, lcgNext_toNat, Nat.testBit_mod_two_pow, decide_eq_true hj, Bool.true_and]
  · change _ = ((btail s).toNat * 13 + 95) % 256
    rw [btail_toNat, btail_toNat]
    exact lcgNext_toNat_mod_two_pow s (by decide)

/-- Settles O10: each of the two affine maps undoes the other, since `A` and `A_INV` cancel. -/
theorem stepIsABijection : Obligations.StepIsABijection :=
  ⟨lcgPrev_lcgNext, lcgNext_lcgPrev, by decide, rfl⟩

/-- Settles O11: a command of one beat returns the successor of its seed. -/
theorem stepHasNoFixedPoint : Obligations.StepHasNoFixedPoint := by
  refine ⟨lcgNext_ne_self, fun order op size seed hone => ?_⟩
  rw [fill_snd, hone]
  exact lcgNext_ne_self seed

/-- Settles O12, by induction on the number of steps. -/
theorem stepsInClosedForm : Obligations.StepsInClosedForm :=
  lcgIter_toNat

/-- Settles O7: the meaning of STEP is the one register write. -/
theorem stepReplacesTheGeneratorState : Obligations.StepReplacesTheGeneratorState :=
  fun s => ⟨lcgNext s.S, rfl, lcgNext_toNat s.S⟩

/-- Settles O15: a field is below twice the alphabet's size, so at most one 26 comes off. -/
theorem fieldReductionTable : Obligations.FieldReductionTable := by
  intro f
  have hf : f.toNat < 32 := f.isLt
  rw [letterOfField_toNat]
  exact ⟨fun h => by rw [Nat.mod_eq_of_lt (by omega)], fun h => by rw [Nat.mod_eq_sub_mod h, Nat.mod_eq_of_lt (by omega)]⟩

/-- Settles O16: the remainder is below 26, so its code fits a cell. -/
theorem wholeValueReduction : Obligations.WholeValueReduction :=
  ⟨ltail_toNat, ltail_toNat _, by decide, by decide⟩

end Sys2Proof.Machine

/-! SUPPORT. The big-step output at an offset, for both commands and every byte order; the beats of a command as a list
(41_fill_bytes.md R105, R106, 42_fill_letters.md R128). -/

namespace Sys2Proof.Machine

/-! ## The beat plan (R105, R128) -/

theorem beatPlan_eq (op : Op) (n : Nat) :
    beatPlan op n =
      List.replicate (n / chunkLen op) (chunkBeat op) ++ List.replicate (n % chunkLen op) (tailBeat op) := by
  induction n using chunk_tail_induction op with
  | zero => simp [beatPlan, beatPlanLoop]
  | chunk n h ih =>
    rw [beatPlan_chunk h, ih, Nat.div_eq_sub_div (chunkLen_pos op) h, Nat.mod_eq_sub_mod h, List.replicate_succ,
      List.cons_append]
  | tail n h ih =>
    have hn : n < chunkLen op := by omega
    rw [beatPlan_tail h, ih, Nat.div_eq_of_lt h, Nat.div_eq_of_lt hn, Nat.mod_eq_of_lt h, Nat.mod_eq_of_lt hn]
    rfl

theorem beatPlan_length (op : Op) (n : Nat) : (beatPlan op n).length = stepCount op n := by
  simp [beatPlan_eq, stepCount]

theorem stepCount_le (op : Op) (n : Nat) : stepCount op n ≤ n := by
  cases op <;> simp only [stepCount, chunkLen_bytes, chunkLen_letters] <;> omega

theorem stepCount_lt {op : Op} {n : Nat} (h : chunkLen op ≤ n) : stepCount op n < n := by
  cases op <;> simp only [stepCount, chunkLen_bytes, chunkLen_letters] at h ⊢ <;> omega

/-! ## The cells of the big-step output (R48, R106, R128) -/

theorem fill_zero (order : ByteOrder) (op : Op) (seed : Word64) : fill order op 0 seed = ([], seed) := rfl

/-- A command writes exactly as many cells as its size says (20_memory.md R48). -/
theorem fill_length (order : ByteOrder) (op : Op) (n : Nat) (seed : Word64) :
    (fill order op n seed).1.length = n := by
  induction n using chunk_tail_induction op generalizing seed with
  | zero => rfl
  | chunk n h ih => rw [fill_chunk order seed h, List.length_append, mainCells_length, ih, Nat.add_sub_cancel' h]
  | tail n h ih => rw [fill_tail order seed h, List.length_cons, ih]

/-- Cell `j` of the `k`-th whole chunk is cell `j` of the main path for the `k+1`-th stepped value. -/
theorem fill_getElem?_chunk (order : ByteOrder) (op : Op) {n k j : Nat} (seed : Word64) (hk : k < n / chunkLen op)
    (hj : j < chunkLen op) :
    (fill order op n seed).1[chunkLen op * k + j]? = (mainCells order op (lcgIter (k + 1) seed))[j]? := by
  induction k generalizing n seed with
  | zero =>
    rw [fill_chunk order seed (Nat.div_pos_iff.mp hk).2, Nat.mul_zero, Nat.zero_add,
      List.getElem?_append_left (by simpa using hj)]
    rfl
  | succ k ih =>
    have hn : chunkLen op ≤ n := (Nat.div_pos_iff.mp (by omega)).2
    rw [Nat.div_eq_sub_div (chunkLen_pos op) hn] at hk
    rw [fill_chunk order seed hn, Nat.mul_succ, Nat.add_right_comm, List.getElem?_append_right (by simp),
      mainCells_length, Nat.add_sub_cancel, ih _ (by omega), lcgIter_next, ← lcgIter_succ]

/-- Element `i` after the whole chunks is the cell of the tail path for its own stepped value. -/
theorem fill_getElem?_tail (order : ByteOrder) (op : Op) {n i : Nat} (seed : Word64) (hi : i < n % chunkLen op) :
    (fill order op n seed).1[chunkLen op * (n / chunkLen op) + i]? =
      some (tailCell op (lcgIter (n / chunkLen op + i + 1) seed)) := by
  induction n using chunk_tail_induction op generalizing seed i with
  | zero => simp at hi
  | chunk n h ih =>
    rw [Nat.mod_eq_sub_mod h] at hi
    rw [fill_chunk order seed h, Nat.div_eq_sub_div (chunkLen_pos op) h, Nat.mul_succ, Nat.add_right_comm,
      List.getElem?_append_right (by simp), mainCells_length, Nat.add_sub_cancel, ih _ hi, lcgIter_next,
      ← lcgIter_succ, Nat.add_right_comm _ 1 i]
  | tail n h ih =>
    have hn : n < chunkLen op := by omega
    rw [Nat.mod_eq_of_lt hn, Nat.div_eq_of_lt hn] at ih
    rw [Nat.mod_eq_of_lt h] at hi
    rw [fill_tail order seed h, Nat.div_eq_of_lt h, Nat.mul_zero, Nat.zero_add]
    cases i with
    | zero => rfl
    | succ i =>
      have hcell := ih (lcgNext seed) (i := i) (by omega)
      simpa [lcgIter_next] using hcell

/-! ## The bytes of a chunk and of a tail -/

theorem mainCells_bytes_little_getElem? (v : Word64) {j : Nat} (h : j < 8) :
    (mainCells .little .bytes v)[j]? = some (v.extractLsb' (8 * j) 8) := by
  simp [mainCells, h]

theorem mainCells_bytes_big_getElem? (v : Word64) {j : Nat} (h : j < 8) :
    (mainCells .big .bytes v)[j]? = some (v.extractLsb' (56 - 8 * j) 8) := by
  simp [mainCells, h]

theorem tailCell_bytes (v : Word64) : tailCell .bytes v = v.extractLsb' 0 8 := rfl

/-- Every byte is the tail cell of the word that holds it in its low bits. -/
theorem tailCell_bytes_setWidth (b : Byte) : tailCell .bytes (b.setWidth 64) = b :=
  BitVec.eq_of_toNat_eq (by simp [tailCell]; omega)

end Sys2Proof.Machine

/-! SUPPORT. A selected beat carried out by its operation: what CORE presents, the registers, the beat's cells and every
other cell (41_fill_bytes.md R101, R102, 42_fill_letters.md R121, R123). -/

namespace Sys2Proof.Machine

variable {w : Nat}

theorem out_of_selected {s : State w} {k : BeatKind} (h : s.selected = some k) : s.out = some (s.beatOf k) :=
  State.out_eq_some_iff.mpr ⟨k, h, rfl⟩

/-- The operation of a selected beat moves the registers by the beat's cell count and replaces the destination. -/
theorem exec_selected {s : State} {k : BeatKind} (h : s.selected = some k) :
    exec k.instr s =
      .next { s with
        S := lcgNext s.S
        off := s.off + BitVec.ofNat Config.sizeW k.cells
        rem := s.rem - BitVec.ofNat Config.sizeW k.cells
        dst := (s.performBeat k).dst } := by
  rw [exec_beat, runBeat_selected h]
  rfl

theorem performBeat_read_cell (s : State w) {k : BeatKind} {j : Nat} (h : j < k.cells) :
    (s.performBeat k).dst.read (s.off.toNat + j) = some (dataCell (dataOf Config.byteOrder k (lcgNext s.S)) j) := by
  rw [performBeat_read, if_pos ⟨Nat.le_add_right _ _, by omega⟩, Nat.add_sub_cancel_left]

theorem performBeat_read_other (s : State w) {k : BeatKind} {a : Nat}
    (h : a < s.off.toNat ∨ s.off.toNat + k.cells ≤ a) : (s.performBeat k).dst.read a = s.dst.read a := by
  rw [performBeat_read, if_neg (by omega)]

/-- At the big order the bytes of the chunk stand reversed (20_memory.md R44). -/
theorem byteOf_bchunk_big (v : Word64) {j : Nat} (h : j < 8) :
    byteOf (bchunk .big v) j = v.extractLsb' (56 - 8 * j) 8 := by
  rw [show 56 - 8 * j = 8 * (7 - j) by omega]
  exact extractLsb'_eight_bytes (byteOf v) h

theorem selected_btail {s : State w} (hp : s.phase = .run) (hm : s.mode = .bytes) (h1 : 1 ≤ s.rem.toNat)
    (h7 : s.rem.toNat ≤ 7) : s.selected = some .btail := by
  obtain ⟨m, hrem⟩ := Nat.exists_eq_add_one.mpr h1
  rw [selected_of_run hp, hm, selectBeat, hrem]
  exact beatFor_tail (op := .bytes) (by rw [chunkLen_bytes]; omega)

theorem dataCell_btail (order : ByteOrder) (v : Word64) : dataCell (dataOf order .btail v) 0 = btail v :=
  (dataCell_setWidth (btail v) 0 (by decide) (by decide)).trans (BitVec.extractLsb'_eq_self)

theorem btail_eq_ofNat_mod (v : Word64) : btail v = BitVec.ofNat 8 (v.toNat % 256) :=
  BitVec.eq_of_toNat_eq (by simp [btail])

end Sys2Proof.Machine

/-! SUPPORT. The transfers of the machine on a listed schedule, sample by sample (00_scope.md R9, 43_command_sequencer.md
R151). -/

namespace Sys2Proof.Machine

variable {w : Nat}

/-- The transfers from a state begin with that of its next sample. -/
theorem trace_succ {s : State} {p : Inputs} {more : List Inputs} (n : Nat) (h : s.inputs = p :: more) :
    trace (n + 1) s = (eventUnder p s).toList ++ trace n (stepUnder p s) := by
  rw [trace, step_eq_stepUnder, event, s.sample_cons p more h]

section Events

variable {p : Inputs w} {s : State w} (hr : p.reset = false)
include hr

theorem eventUnder_offered {c : Command w} (hp : s.phase = .idle) (hc : p.cmd = some c.word) :
    eventUnder p s = some (.takeCmd c) := by
  simp [eventUnder, hr, hp, hc]

theorem eventUnder_endBeats (hp : s.phase = .run) (h0 : s.rem = 0) : eventUnder p s = none := by
  have hout : s.out = none := by rw [State.out, (selected_eq_none_iff hp).mpr h0, Option.map_none]
  simp [eventUnder, hr, hp, hout]

theorem eventUnder_respond (hp : s.phase = .resp) (ho : p.rspReady = true) : eventUnder p s = some (.sendRsp s.S) := by
  simp [eventUnder, hr, hp, ho, (s.rsp_eq_some_iff s.S).mpr ⟨hp, rfl⟩]

end Events

/-- With no beat left a willing environment sees the end of beats and then the response. -/
theorem stepsUnder_no_beat_left {s : State w} {p q : Inputs w} (hrun : s.phase = .run) (h0 : s.rem = 0)
    (hp : p.isWilling = true) (hq : q.isWilling = true) : stepsUnder [p, q] s = s.advance.endBeats.advance.respond := by
  obtain ⟨hpr, -, -⟩ := Inputs.isWilling_iff.mp hp
  obtain ⟨hqr, -, ho⟩ := Inputs.isWilling_iff.mp hq
  rw [stepsUnder, stepsUnder, stepsUnder, stepUnder_endBeats hpr hrun h0, stepUnder_respond hqr (by simp) ho]

/-- With no beat left the one transfer to come is the response, which is the generator state. -/
theorem trace_no_beat_left {s : State} {p q : Inputs} {more : List Inputs} (hrun : s.phase = .run) (h0 : s.rem = 0)
    (hin : s.inputs = p :: q :: more) (hp : p.isWilling = true) (hq : q.isWilling = true) :
    trace 2 s = [.sendRsp s.S] := by
  obtain ⟨hpr, -, -⟩ := Inputs.isWilling_iff.mp hp
  obtain ⟨hqr, -, ho⟩ := Inputs.isWilling_iff.mp hq
  have hnext : s.advance.endBeats.inputs = q :: more := by simp [hin]
  rw [trace_succ 1 hin, eventUnder_endBeats hpr hrun h0, stepUnder_endBeats hpr hrun h0, trace_succ 0 hnext,
    eventUnder_respond hqr (by simp) ho, trace]
  simp

end Sys2Proof.Machine

/-! PROOFS. The statements of 41_fill_bytes.md. -/

namespace Sys2Proof.Machine

/-- Settles O53: the offset is taken apart into a chunk and a place in it, or into the chunks and a place in the tail. -/
theorem everyOutputByteInClosedForm : Obligations.EveryOutputByteInClosedForm := by
  intro size seed p
  refine ⟨fun order => fill_length order .bytes size seed, fun hp => ?_, fun hq hp order => ?_⟩
  · have hk : p / 8 < size / 8 := by omega
    have hj : p % 8 < 8 := Nat.mod_lt p (by decide)
    have hcell := fun order => fill_getElem?_chunk order .bytes seed hk hj
    rw [chunkLen_bytes, Nat.div_add_mod] at hcell
    exact ⟨(hcell .little).trans (mainCells_bytes_little_getElem? _ hj),
      (hcell .big).trans (mainCells_bytes_big_getElem? _ hj)⟩
  · obtain ⟨i, rfl⟩ := Nat.exists_eq_add_of_le hq
    rw [Nat.add_sub_cancel_left, ← tailCell_bytes]
    exact fill_getElem?_tail order .bytes seed (by rw [chunkLen_bytes]; omega)

/-- Settles O20: the seed is the state before the word that holds the byte. -/
theorem everyByteValueOccurs : Obligations.EveryByteValueOccurs := by
  intro order b
  refine ⟨lcgPrev (b.setWidth 64), ?_⟩
  rw [fill_tail (n := 0) order _ (by decide), lcgNext_lcgPrev, tailCell_bytes_setWidth, fill_zero]

/-- Settles O21: the beat presented and carried out is the selected chunk, and its cells are the bytes of the value. -/
theorem bchunkWritesEightBytes : Obligations.BchunkWritesEightBytes := by
  refine ⟨fun s hp hm h8 => ?_, fun v j hj => byteOf_bchunk_big v hj⟩
  have hs := selected_bchunk hp hm h8
  exact ⟨out_of_selected hs, (s.performBeat .bchunk).dst, exec_selected hs, fun j hj => performBeat_bchunk_read s hj,
    fun a ha => performBeat_read_other s ha⟩

/-- Settles O22: the beat presented and carried out is the selected tail, and its cell is the low byte of the value. -/
theorem btailWritesTheLowByte : Obligations.BtailWritesTheLowByte := by
  intro s hp hm h1 h7
  have hs := selected_btail hp hm h1 h7
  refine ⟨out_of_selected hs, (s.performBeat .btail).dst, exec_selected hs, ?_, fun a ha => performBeat_read_other s ha⟩
  have hcell := performBeat_read_cell s (k := .btail) (j := 0) (by decide)
  rwa [dataCell_btail, btail_eq_ofNat_mod] at hcell

/-- Settles O47: acceptance is followed by the end of beats and the response, none of which writes a cell. -/
theorem sizeZeroHasNoBeat : Obligations.SizeZeroHasNoBeat := by
  refine ⟨fill_zero, fun c s first p q more h0 hoffer hin hp hq => ?_⟩
  obtain ⟨hidle, hr, hc⟩ := hoffer
  have hfirst := s.sample_cons first _ hin
  rw [hfirst] at hr hc
  have haccept := stepUnder_offered hr hidle hc
  have hruns := (runs_stepsUnder (ps := [first, p, q]) hin).1
  rw [stepsUnder, haccept, stepsUnder_no_beat_left (by simp) (by simpa using h0) hp hq] at hruns
  refine ⟨?_, _, hruns, by simp, by simp [State.sampled, hfirst], by simp⟩
  rw [trace_succ 2 hin, eventUnder_offered hr hidle hc, haccept,
    trace_no_beat_left (by simp) (by simpa using h0) (by simpa using congrArg List.tail hin) hp hq]
  simp

/-- Settles O51: the plan of each command, its length and the bounds of the step count. -/
theorem beatPlanOfACommand : Obligations.BeatPlanOfACommand := fun size =>
  ⟨beatPlan_eq .bytes size, beatPlan_eq .letters size,
    fun op => ⟨beatPlan_length op size, stepCount_le op size, stepCount_lt⟩⟩

/-- Settles O52: each round of the loops is one step. -/
theorem newSeedIsTheStateAfterKSteps : Obligations.NewSeedIsTheStateAfterKSteps := fun order size seed =>
  ⟨fill_snd order .bytes size seed, fill_snd order .letters size seed⟩

end Sys2Proof.Machine

/-! SUPPORT. The letters of a chunk and of a tail: which bits of the stepped value a cell depends on, the range of every
cell, and the beats that carry them (42_fill_letters.md R121 to R129). -/

namespace Sys2Proof.Machine

variable {w : Nat}

/-! ## The cells of the big-step output and of a beat (R121, R123, R128) -/

theorem mainCells_letters_getElem? (order : ByteOrder) (v : Word64) {i : Nat} (h : i < 12) :
    (mainCells order .letters v)[i]? = some (lane v i) := by
  simp only [mainCells, List.getElem?_map, List.getElem?_range h, Option.map_some]
  rfl

theorem tailCell_letters (v : Word64) : tailCell .letters v = ltail v := rfl

theorem dataCell_ltail (order : ByteOrder) (v : Word64) : dataCell (dataOf order .ltail v) 0 = ltail v :=
  (tailCell_eq_dataCell order .letters v).symm

theorem lane_toNat (v : Word64) (i : Nat) : (lane v i).toNat = 0x61 + (v.extractLsb' (5 * i) 5).toNat % 26 :=
  letterOfField_toNat (fieldOf v i)

/-! ## The bits a chunk depends on (R129) -/

/-- The field of a lane stands within bits 59 to 0. -/
theorem fieldOf_eq_of_low_sixty (v : Word64) {i : Nat} (h : i < 12) :
    fieldOf v i = (v.extractLsb' 0 60).extractLsb' (5 * i) 5 :=
  (BitVec.extractLsb'_extractLsb'_of_le (by simp only [Config.FW]; omega)).symm

theorem lane_congr {v v' : Word64} (h : v.extractLsb' 0 60 = v'.extractLsb' 0 60) {i : Nat} (hi : i < 12) :
    lane v i = lane v' i := by
  rw [lane, lane, fieldOf_eq_of_low_sixty v hi, fieldOf_eq_of_low_sixty v' hi, h]

/-! ## The range of every cell (R126) -/

/-- A cell that holds one of the codes of 'a' to 'z'. -/
def IsLetter (b : Byte) : Prop :=
  0x61 ≤ b.toNat ∧ b.toNat ≤ 0x7A

theorem isLetter_letterCode {r : Nat} (h : r < 26) : IsLetter (letterCode r) := by
  rw [IsLetter, letterCode_toNat h]
  omega

theorem isLetter_lane (v : Word64) (i : Nat) : IsLetter (lane v i) :=
  isLetter_letterCode (Nat.mod_lt _ (by decide))

theorem isLetter_ltail (v : Word64) : IsLetter (ltail v) :=
  isLetter_letterCode (Nat.mod_lt _ (by decide))

/-- What holds of the cells of every step, on the main and on the tail path, holds of every cell of a command. -/
theorem forall_mem_fill {order : ByteOrder} {op : Op} {P : Byte → Prop}
    (hmain : ∀ v, ∀ b ∈ mainCells order op v, P b) (htail : ∀ v, P (tailCell op v)) (n : Nat) (seed : Word64) : ∀ b ∈ (fill order op n seed).1, P b := by
  induction n using chunk_tail_induction op generalizing seed with
  | zero => simp [fill_zero]
  | chunk n h ih =>
    rw [fill_chunk order seed h]
    exact List.forall_mem_append.mpr ⟨hmain _, ih _⟩
  | tail n h ih =>
    rw [fill_tail order seed h]
    exact List.forall_mem_cons.mpr ⟨htail _, ih _⟩

theorem isLetter_of_mem_mainCells {order : ByteOrder} {v : Word64} {b : Byte} (h : b ∈ mainCells order .letters v) :
    IsLetter b := by
  obtain ⟨i, -, rfl⟩ := List.mem_map.mp h
  exact isLetter_lane v i

/-! ## The beats of FILL_LETTERS (R121, R123) -/

theorem beatFor_eq_chunk_or_tail {op : Op} {n : Nat} {k : BeatKind} (h : beatFor op n = some k) :
    k = chunkBeat op ∨ k = tailBeat op := by
  rcases Nat.lt_or_ge n (chunkLen op) with hn | hn
  · obtain ⟨m, rfl⟩ := Nat.exists_eq_add_one.mpr (show 0 < n by have := beatFor_cells h; omega)
    exact .inr (Option.some.inj (h.symm.trans (beatFor_tail hn)))
  · exact .inl (Option.some.inj (h.symm.trans (beatFor_chunk hn)))

theorem selected_lchunk {s : State w} (hp : s.phase = .run) (hm : s.mode = .letters) (h : 12 ≤ s.rem.toNat) :
    s.selected = some .lchunk := by
  rw [selected_of_run hp, hm]
  exact beatFor_chunk (op := .letters) h

theorem selected_ltail {s : State w} (hp : s.phase = .run) (hm : s.mode = .letters) (h1 : 1 ≤ s.rem.toNat)
    (h11 : s.rem.toNat ≤ 11) : s.selected = some .ltail := by
  obtain ⟨m, hrem⟩ := Nat.exists_eq_add_one.mpr h1
  rw [selected_of_run hp, hm, selectBeat, hrem]
  exact beatFor_tail (op := .letters) (by rw [chunkLen_letters]; omega)

theorem isLetter_dataCell_out {s : State w} {b : Beat w} (hm : s.mode = .letters) (hb : s.out = some b) {j : Nat}
    (hj : j < b.n.toNat) : IsLetter (dataCell b.data j) := by
  obtain ⟨k, hs, rfl⟩ := State.out_eq_some_iff.mp hb
  have hsel := (selected_some hs).2
  rw [hm] at hsel
  rw [State.beatOf_n] at hj
  rw [State.beatOf_data]
  rcases beatFor_eq_chunk_or_tail hsel with rfl | rfl
  · exact (dataCell_lchunk (lcgNext s.S) j hj).symm ▸ isLetter_lane _ j
  · obtain rfl : j = 0 := Nat.lt_one_iff.mp hj
    exact (dataCell_ltail _ (lcgNext s.S)).symm ▸ isLetter_ltail _

end Sys2Proof.Machine

/-! PROOFS. The statements of 42_fill_letters.md. -/

namespace Sys2Proof.Machine

/-- Settles O54: the offset is taken apart into a chunk and a lane of it, or into the chunks and a place in the tail. -/
theorem everyOutputLetterInClosedForm : Obligations.EveryOutputLetterInClosedForm := by
  intro order size seed p
  refine ⟨fill_length order .letters size seed, fun hp => ?_, fun hq hp => ?_⟩
  · have hk : p / 12 < size / 12 := by omega
    have hi : p % 12 < 12 := Nat.mod_lt p (by decide)
    have hcell := fill_getElem?_chunk order .letters seed hk hi
    rw [chunkLen_letters, Nat.div_add_mod] at hcell
    exact hcell.trans (mainCells_letters_getElem? order _ hi)
  · obtain ⟨i, rfl⟩ := Nat.exists_eq_add_of_le hq
    rw [Nat.add_sub_cancel_left]
    exact fill_getElem?_tail order .letters seed (by rw [chunkLen_letters]; omega)

/-- Settles O18: every cell is the code of a remainder modulo 26, in the output of the command as in the beats. -/
theorem everyLetterIsInRange : Obligations.EveryLetterIsInRange :=
  ⟨fun _ size seed => forall_mem_fill (fun _ _ => isLetter_of_mem_mainCells) isLetter_ltail size seed,
    fun _ _ _ hm hb hj => isLetter_dataCell_out hm hb hj⟩

/-- Settles O19: the lanes read bits 59 to 0 alone, and the beat writes the whole stepped value to `S`. -/
theorem topFourBitsReachNoLane : Obligations.TopFourBitsReachNoLane := by
  refine ⟨fun v v' h => ?_, fun s hp hm h12 => ⟨_, exec_selected (selected_lchunk hp hm h12), rfl⟩⟩
  have hlane := fun i => lane_congr h (i := i)
  simp only [lchunk, hlane, Nat.reduceLT]

/-- Settles O23: the beat presented and carried out is the selected chunk, and its cells are the lanes of the value. -/
theorem lchunkWritesTwelveLetters : Obligations.LchunkWritesTwelveLetters := by
  refine ⟨fun s hp hm h12 => ?_, dataCell_lchunk⟩
  have hs := selected_lchunk hp hm h12
  refine ⟨out_of_selected hs, (s.performBeat .lchunk).dst, exec_selected hs, fun i hi => ?_,
    fun a ha => performBeat_read_other s ha⟩
  exact (performBeat_read_cell s hi).trans (congrArg some (dataCell_lchunk _ i hi))

/-- Settles O24: the beat presented and carried out is the selected tail, and its cell is the letter of the value. -/
theorem ltailWritesOneLetter : Obligations.LtailWritesOneLetter := by
  intro s hp hm h1 h11
  have hs := selected_ltail hp hm h1 h11
  refine ⟨out_of_selected hs, (s.performBeat .ltail).dst, exec_selected hs, ?_, fun a ha => performBeat_read_other s ha⟩
  exact (performBeat_read_cell s (j := 0) (by decide)).trans (congrArg some (dataCell_ltail _ _))

/-- Settles O17: a lane is the letter of its field, the tail that of the whole value; they differ on the spec's value. -/
theorem theTwoLetterPathsReduceDifferently : Obligations.TheTwoLetterPathsReduceDifferently :=
  ⟨fun v i hi => by rw [dataCell_lchunk v i hi, lane_toNat], ltail_toNat, by decide, by decide⟩

end Sys2Proof.Machine

/-! SUPPORT. The environment of a busy CORE: the signals it hears, a stall of any length, the course and the transfers
under an environment without an end, and a stall for ever (43_command_sequencer.md R140, R144, R147, R150). -/

namespace Sys2Proof.Machine

variable {w : Nat} {s : State w} {p q : Inputs w}

/-! ## A busy CORE (R147) -/

theorem fetch_congr_of_busy (hs : s.phase ≠ .idle) (hout : p.outReady = q.outReady) : fetch s p = fetch s q := by
  rcases hp : s.phase with _ | _ | _
  · exact absurd hp hs
  · simp [fetch, hp, hout]
  · simp [fetch, hp]

theorem betweenOps_congr (hrsp : p.rspReady = q.rspReady) : betweenOps s p = betweenOps s q := by
  rw [betweenOps, betweenOps, hrsp]

/-- Outside IDLE the step depends neither on the CMD channel nor on a destination offered to be bound. -/
theorem stepUnder_congr_of_busy (hs : s.phase ≠ .idle) (hreset : p.reset = q.reset) (hout : p.outReady = q.outReady)
    (hrsp : p.rspReady = q.rspReady) : stepUnder p s = stepUnder q s := by
  have hadvance : s.advance.phase ≠ .idle := hs
  rw [stepUnder, stepUnder, hreset, s.taking_busy p hs, s.taking_busy q hs, fetch_congr_of_busy hadvance hout,
    betweenOps_congr hrsp]

/-- The step of a busy machine is the same for a sample with other CMD signals and another destination to bind. -/
theorem step_cmd_bind_irrelevant {s : State} {p : Inputs} {rest : List Inputs} (hs : s.phase ≠ .idle)
    (hin : s.inputs = p :: rest) (cmd : Option CmdWord) (bind : Option (List Host.Cell)) :
    step { s with inputs := { p with cmd := cmd, bind := bind } :: rest } = step s := by
  rw [step_eq_stepUnder, step_eq_stepUnder, s.sample_cons p rest hin]
  refine congrArg _ ?_
  calc stepUnder { p with cmd := cmd, bind := bind } { s with inputs := { p with cmd := cmd, bind := bind } :: rest }
    _ = stepUnder p { s with inputs := { p with cmd := cmd, bind := bind } :: rest } :=
      stepUnder_congr_of_busy hs rfl rfl rfl
    _ = stepUnder p { s with inputs := p :: rest } := rfl
    _ = stepUnder p s := by rw [← hin]

/-! ## A stall (R144) -/

/-- CORE presents a beat or a response and the environment does not take it. -/
def Stalls (p : Inputs w) (s : State w) : Prop :=
  (s.outValid = true ∧ p.outReady = false) ∨ (s.rspValid = true ∧ p.rspReady = false)

/-- The state with `n` samples used up. -/
def State.advanceBy (n : Nat) (s : State w) : State w :=
  { s with inputs := s.inputs.drop n, draws := s.draws + n }

theorem State.advanceBy_one (s : State w) : s.advanceBy 1 = s.advance := by
  simp [advance, advanceBy]

theorem State.advance_advanceBy (n : Nat) (s : State w) : s.advance.advanceBy n = s.advanceBy (n + 1) := by
  simp [advance, advanceBy, Nat.add_assoc, Nat.add_comm 1 n]

theorem State.advanceBy_advance (n : Nat) (s : State w) : (s.advanceBy n).advance = s.advanceBy (n + 1) := by
  simp [advance, advanceBy, Nat.add_assoc]

theorem Stalls.not_willing (h : Stalls p s) : p.isWilling = false := by
  rcases h with ⟨-, h⟩ | ⟨-, h⟩ <;> simp [Inputs.isWilling, h]

/-- What is presented and not taken makes CORE busy. -/
theorem Stalls.busy (h : Stalls p s) : s.busy = true := by
  rw [s.busy_iff]
  rcases h with ⟨h, -⟩ | ⟨h, -⟩
  · rw [(s.outValid_iff.mp h).1]
    exact Phase.noConfusion
  · rw [s.rspValid_iff.mp h]
    exact Phase.noConfusion

/-- At most one of the two channels presents. -/
theorem Stalls.outReady (h : Stalls p s) (hv : s.outValid = true) : p.outReady = false := by
  rcases h with ⟨-, ho⟩ | ⟨hrsp, -⟩
  · exact ho
  · simp [s.rspValid_iff, (s.outValid_iff.mp hv).1] at hrsp

theorem Stalls.rspReady (h : Stalls p s) (hv : s.rspValid = true) : p.rspReady = false := by
  rcases h with ⟨hout, -⟩ | ⟨-, ho⟩
  · simp [s.outValid_iff, s.rspValid_iff.mp hv] at hout
  · exact ho

theorem Stalls.stepUnder (h : Stalls p s) (hr : p.reset = false) : stepUnder p s = s.advance := by
  rcases h with ⟨hv, ho⟩ | ⟨hv, ho⟩
  · obtain ⟨k, hs⟩ := Option.isSome_iff_exists.mp (s.selected_isSome_iff.mpr (s.outValid_iff.mp hv))
    exact stepUnder_stalled hr hs ho
  · exact stepUnder_unanswered hr (s.rspValid_iff.mp hv) ho

/-- Nothing transfers while what is presented is not taken. -/
theorem Stalls.eventUnder (h : Stalls p s) : eventUnder p s = none := by
  rcases h with ⟨hv, ho⟩ | ⟨hv, ho⟩
  · simp [Machine.eventUnder, (s.outValid_iff.mp hv).1, ho]
  · simp [Machine.eventUnder, s.rspValid_iff.mp hv, ho]

theorem stepsUnder_stalled {ps : List (Inputs w)} (hr : ∀ p ∈ ps, p.reset = false) (h : ∀ p ∈ ps, Stalls p s) :
    stepsUnder ps s = s.advanceBy ps.length := by
  induction ps generalizing s with
  | nil => rfl
  | cons p ps ih =>
    obtain ⟨hpr, hpsr⟩ := List.forall_mem_cons.mp hr
    obtain ⟨hp, hps⟩ := List.forall_mem_cons.mp h
    rw [stepsUnder, hp.stepUnder hpr, ih hpsr (s := s.advance) hps, State.advance_advanceBy]
    rfl

/-! ## The course and the transfers cut at a step (R140) -/

variable {env : Nat → Inputs w}

/-- What the environment drives from step `n` on. -/
def later (env : Nat → Inputs w) (n : Nat) : Nat → Inputs w :=
  fun m => env (n + m)

theorem NoReset.later (h : NoReset env) (n : Nat) : NoReset (later env n) :=
  fun m => h (n + m)

theorem course_add (env : Nat → Inputs w) (s : State w) (n m : Nat) :
    course env s (n + m) = course (later env n) (course env s n) m := by
  induction m with
  | zero => rfl
  | succ m ih => rw [← Nat.add_assoc, course_succ, ih, course_succ, later]

theorem course_one_add (env : Nat → Inputs w) (s : State w) (n : Nat) :
    course env s (1 + n) = course (later env 1) (stepUnder (env 0) s) n :=
  course_add env s 1 n

theorem traceUnder_add (env : Nat → Inputs w) (s : State w) (n m : Nat) :
    traceUnder env s (n + m) = traceUnder env s n ++ traceUnder (later env n) (course env s n) m := by
  induction m with
  | zero => simp [traceUnder]
  | succ m ih => rw [← Nat.add_assoc, traceUnder, ih, traceUnder, course_add, List.append_assoc, later]

theorem traceUnder_one_add (env : Nat → Inputs w) (s : State w) (n : Nat) :
    traceUnder env s (1 + n) = (eventUnder (env 0) s).toList ++ traceUnder (later env 1) (stepUnder (env 0) s) n :=
  traceUnder_add env s 1 n

/-- A course is the run on the samples that its environment drives. -/
theorem course_eq_stepsUnder (env : Nat → Inputs w) (s : State w) (n : Nat) :
    course env s n = stepsUnder ((List.range n).map env) s := by
  induction n with
  | zero => rfl
  | succ n ih => rw [course_succ, ih, List.range_succ, List.map_append, stepsUnder_append]; rfl

/-! ## Stalling for a while and for ever (R150) -/

theorem course_stalled {n : Nat} (hr : NoReset env) (h : ∀ m < n, Stalls (env m) s) :
    course env s n = s.advanceBy n ∧ traceUnder env s n = [] := by
  induction n with
  | zero => exact ⟨rfl, rfl⟩
  | succ n ih =>
    obtain ⟨hcourse, htrace⟩ := ih fun m hm => h m (by omega)
    have hn : Stalls (env n) (s.advanceBy n) := h n n.lt_succ_self
    rw [course_succ, traceUnder, hcourse, htrace, hn.stepUnder (hr n), hn.eventUnder, State.advanceBy_advance]
    exact ⟨rfl, rfl⟩

/-- An environment that never takes what is presented leaves CORE waiting for ever. -/
theorem waitsForEver_of_stalls (hr : NoReset env) (h : ∀ n, Stalls (env n) s) : WaitsForEver env s 0 := by
  have hcourse : ∀ n, course env s n = s.advanceBy n := fun n => (course_stalled hr fun m _ => h m).1
  have hout : ∀ n, (s.advanceBy n).outValid = s.outValid := fun _ => rfl
  have hrsp : ∀ n, (s.advanceBy n).rspValid = s.rspValid := fun _ => rfl
  simp only [WaitsForEver, hcourse, hout, hrsp]
  refine ⟨fun m _ => ⟨(h m).busy, ⟨rfl, rfl, rfl, rfl, rfl⟩, rfl⟩, ?_⟩
  rcases h 0 with ⟨hv, -⟩ | ⟨hv, -⟩
  · exact .inl fun m _ => ⟨hv, (h m).outReady hv⟩
  · exact .inr fun m _ => ⟨hv, (h m).rspReady hv⟩

theorem WaitsForEver.of_later {n k : Nat} (h : WaitsForEver (later env n) (course env s n) k) :
    WaitsForEver env s (n + k) := by
  have hshift : ∀ m, n + k ≤ m → ∃ i, k ≤ i ∧ m = n + i := fun m hm => ⟨m - n, by omega, by omega⟩
  obtain ⟨hsteady, hkind⟩ := h
  simp only [← course_add] at hsteady hkind
  refine ⟨fun m hm => ?_, hkind.imp (fun h m hm => ?_) (fun h m hm => ?_)⟩ <;>
    obtain ⟨i, hi, rfl⟩ := hshift m hm
  · exact hsteady i hi
  · exact h i hi
  · exact h i hi

/-- The duties of the sink and of the requester exclude a wait for ever (43_command_sequencer.md R150). -/
theorem not_waitsForEver_of_fair (hsink : SinkFair env s) (hreq : RequesterFair env s) (n : Nat) :
    ¬ WaitsForEver env s n := by
  rintro ⟨-, h | h⟩
  · obtain ⟨m, hm, hready⟩ := hsink n
    obtain ⟨hv, hno⟩ := h m hm
    exact Bool.false_ne_true (hno.symm.trans (hready hv))
  · obtain ⟨m, hm, hready⟩ := hreq n
    obtain ⟨hv, hno⟩ := h m hm
    exact Bool.false_ne_true (hno.symm.trans (hready hv))

end Sys2Proof.Machine

/-! SUPPORT. A command in flight: the moves it has left and the transfers still to come, from acceptance through every
stalling to its completion or to a wait for ever (43_command_sequencer.md R141, R149, R150, R151). -/

namespace Sys2Proof.Machine

variable {w : Nat}

/-! ## The transfers to come -/

/-- The transfers of `m` beats of a command from beat number `k` on, and then of its response. -/
def eventsFrom (c : Command w) (k m : Nat) : List (Event w) :=
  (List.range' k m).map (fun i => .sendOut (c.beat i)) ++ [.sendRsp c.result.2]

theorem eventsFrom_succ (c : Command w) (k m : Nat) :
    eventsFrom c k (m + 1) = .sendOut (c.beat k) :: eventsFrom c (k + 1) m := rfl

theorem transfers_eq (c : Command w) : c.transfers = .takeCmd c :: eventsFrom c 0 c.steps := by
  rw [Command.transfers, eventsFrom, List.range_eq_range', List.cons_append]

theorem eventUnder_beat {p : Inputs w} {s : State w} {b : Beat w} (hr : p.reset = false) (hb : s.out = some b)
    (ho : p.outReady = true) : eventUnder p s = some (.sendOut b) := by
  obtain ⟨k, hs, -⟩ := State.out_eq_some_iff.mp hb
  simp [eventUnder, hr, (selected_some hs).1, ho, hb]

/-- The beat presented after `k` beats is beat number `k` of the command. -/
theorem Running.out {c : Command w} {prior : Memory} {rs : List Word64} {k : Nat} {s : State w}
    (h : Running c prior rs k s) (hk : k < c.steps) : s.out = some (c.beat k) := by
  rw [out_of_selected (h.selected hk), State.beatOf, Command.beat, lcgIter_succ, h.gen, ← h.off, BitVec.ofNat_toNat,
    BitVec.setWidth_eq]

/-! ## One move -/

/-- The command `c` has `m` moves left, on which the transfers `es` are still to come: its beats left, the end of beats,
its response. -/
inductive InFlight (c : Command w) (prior : Memory) (rs : List Word64) : Nat → List (Event w) → State w → Prop
  | running {k m : Nat} {s : State w} (hk : k + m = c.steps) (h : Running c prior rs k s) :
      InFlight c prior rs (m + 2) (eventsFrom c k m) s
  | responding {s : State w} (h : Responding c prior rs s) : InFlight c prior rs 1 [.sendRsp c.result.2] s
  | completed {s : State w} (h : Completed c prior rs s) : InFlight c prior rs 0 [] s

variable {c : Command w} {prior : Memory} {rs : List Word64} {m : Nat} {es : List (Event w)} {s : State w}

theorem InFlight.eq_nil_and_completed (h : InFlight c prior rs 0 es s) : es = [] ∧ Completed c prior rs s := by
  cases h with
  | completed h => exact ⟨rfl, h⟩

/-- The samples used up do not matter. -/
theorem InFlight.advanceBy (h : InFlight c prior rs m es s) (n : Nat) : InFlight c prior rs m es (s.advanceBy n) := by
  cases h with
  | running hk h => exact .running hk ⟨h.phase, h.mode, h.count, h.gen, h.off, h.rem, h.cells, h.rsps⟩
  | responding h => exact .responding ⟨h.phase, h.gen, h.rem, h.off, h.cells, h.rsps⟩
  | completed h => exact .completed ⟨h.phase, h.cells, h.rsps⟩

theorem InFlight.advance (h : InFlight c prior rs m es s) : InFlight c prior rs m es s.advance :=
  s.advanceBy_one ▸ h.advanceBy 1

/-- A step without reset makes the next move, with its transfer, unless the environment stalls. -/
theorem InFlight.after_step {p : Inputs w} (h : InFlight c prior rs (m + 1) es s) (hr : p.reset = false) :
    (∃ es', es = (eventUnder p s).toList ++ es' ∧ InFlight c prior rs m es' (stepUnder p s)) ∨ Stalls p s := by
  cases h with
  | @running k m _ hk h =>
    cases m with
    | zero =>
      obtain rfl : k = c.steps := hk
      rw [eventUnder_endBeats hr h.phase h.rem_eq_zero, stepUnder_endBeats hr h.phase h.rem_eq_zero]
      exact .inl ⟨_, rfl, .responding h.advance.endBeats⟩
    | succ m =>
      have hlt : k < c.steps := by omega
      rcases ho : p.outReady with _ | _
      · exact .inr (.inl ⟨by rw [State.outValid, h.out hlt]; rfl, ho⟩)
      · rw [eventUnder_beat hr (h.out hlt) ho, stepUnder_beat hr (h.selected hlt) ho]
        exact .inl ⟨_, eventsFrom_succ c k m, .running (by omega) (h.advance.performBeat hlt)⟩
  | responding h =>
    rcases ho : p.rspReady with _ | _
    · exact .inr (.inr ⟨s.rspValid_iff.mpr h.phase, ho⟩)
    · rw [eventUnder_respond hr h.phase ho, stepUnder_respond hr h.phase ho, h.gen]
      exact .inl ⟨[], rfl, .completed h.advance.respond⟩

/-! ## A listed schedule -/

/-- Moments without reset complete a command if as many of them are willing as it has moves left. -/
theorem InFlight.completed_of_willing {ps : List (Inputs w)} (h : InFlight c prior rs m es s)
    (hr : ∀ p ∈ ps, p.reset = false) (hm : m ≤ (ps.filter Inputs.isWilling).length) :
    ∃ qs, qs <+: ps ∧ Completed c prior rs (stepsUnder qs s) := by
  induction ps generalizing m es s with
  | nil =>
    obtain rfl : m = 0 := by simpa using hm
    exact ⟨[], List.nil_prefix, h.eq_nil_and_completed.2⟩
  | cons p ps ih =>
    obtain ⟨hp, hps⟩ := List.forall_mem_cons.mp hr
    rcases m with _ | m
    · exact ⟨[], List.nil_prefix, h.eq_nil_and_completed.2⟩
    · rcases h.after_step hp with ⟨es', -, hnext⟩ | hstall
      · have hm : m ≤ (ps.filter Inputs.isWilling).length := by
          rw [List.filter_cons] at hm
          split at hm
          · exact Nat.succ_le_succ_iff.mp hm
          · omega
        obtain ⟨qs, hqs, hdone⟩ := ih hnext hps hm
        exact ⟨p :: qs, (List.prefix_cons_inj p).mpr hqs, hdone⟩
      · rw [List.filter_cons_of_neg (by simp [hstall.not_willing])] at hm
        obtain ⟨qs, hqs, hdone⟩ := ih h.advance hps hm
        exact ⟨p :: qs, (List.prefix_cons_inj p).mpr hqs, by rwa [stepsUnder, hstall.stepUnder hp]⟩

/-- Along willing moments, one for each move left, the transfers are those to come. -/
theorem InFlight.trace_willing {c : Command} {es : List Event} {s : State} {ps more : List Inputs}
    (h : InFlight c prior rs ps.length es s) (hin : s.inputs = ps ++ more) (hw : ∀ p ∈ ps, p.isWilling = true) :
    trace ps.length s = es := by
  induction ps generalizing es s with
  | nil => exact h.eq_nil_and_completed.1.symm
  | cons p ps ih =>
    obtain ⟨hp, hps⟩ := List.forall_mem_cons.mp hw
    rcases h.after_step (Inputs.isWilling_iff.mp hp).1 with ⟨es', rfl, hnext⟩ | hstall
    · rw [List.length_cons, trace_succ _ hin, ih hnext (by rw [stepUnder_inputs, hin]; rfl) hps]
    · exact absurd hp (by simp [hstall.not_willing])

/-! ## An environment without an end -/

section Endless

variable {env : Nat → Inputs w} (hr : NoReset env)
include hr

/-- At every step the transfers so far leave those to come, or all of them are made. -/
theorem InFlight.traceUnder_prefix (h : InFlight c prior rs m es s) (n : Nat) :
    (∃ m' es', es = traceUnder env s n ++ es' ∧ InFlight c prior rs m' es' (course env s n)) ∨
      es <+: traceUnder env s n := by
  induction n with
  | zero => exact .inl ⟨m, es, rfl, h⟩
  | succ n ih =>
    rw [traceUnder, course_succ]
    rcases ih with ⟨_ | m', es', rfl, hnow⟩ | hdone
    · rw [hnow.eq_nil_and_completed.1, List.append_nil]
      exact .inr (List.prefix_append _ _)
    · rcases hnow.after_step (hr n) with ⟨es'', rfl, hnext⟩ | hstall
      · exact .inl ⟨m', es'', (List.append_assoc _ _ _).symm, hnext⟩
      · rw [hstall.eventUnder, hstall.stepUnder (hr n)]
        exact .inl ⟨m' + 1, es', by simp, hnow.advance⟩
    · exact .inr (hdone.trans (List.prefix_append _ _))

/-- The next move is made after some steps, or CORE waits for ever. -/
theorem InFlight.moves_or_waits (h : InFlight c prior rs (m + 1) es s) :
    (∃ n es', es = traceUnder env s n ++ es' ∧ InFlight c prior rs m es' (course env s n)) ∨
      WaitsForEver env s 0 := by
  by_cases hstall : ∀ n, Stalls (env n) s
  · exact .inr (waitsForEver_of_stalls hr hstall)
  · obtain ⟨n, hn, hbefore⟩ : ∃ n, ¬ Stalls (env n) s ∧ ∀ i < n, Stalls (env i) s := by
      classical
      have hsome := not_forall.mp hstall
      exact ⟨Nat.find hsome, Nat.find_spec hsome, fun i hi => not_not.mp (Nat.find_min hsome hi)⟩
    obtain ⟨hcourse, htrace⟩ := course_stalled hr hbefore
    obtain ⟨es', hes, hnext⟩ := ((h.advanceBy n).after_step (hr n)).resolve_right hn
    refine .inl ⟨n + 1, es', ?_, ?_⟩
    · rwa [traceUnder, hcourse, htrace, List.nil_append]
    · rwa [course_succ, hcourse]

/-- A command in flight completes, with the transfers to come, or CORE waits for ever. -/
theorem InFlight.completes_or_waits (h : InFlight c prior rs m es s) :
    (∃ n, traceUnder env s n = es ∧ Completed c prior rs (course env s n)) ∨ ∃ n, WaitsForEver env s n := by
  induction m generalizing env es s with
  | zero =>
    obtain ⟨rfl, hdone⟩ := h.eq_nil_and_completed
    exact .inl ⟨0, rfl, hdone⟩
  | succ m ih =>
    rcases h.moves_or_waits hr with ⟨n, es', rfl, hnext⟩ | hwait
    · rcases ih (hr.later n) hnext with ⟨n', rfl, hdone⟩ | ⟨n', hwait⟩
      · exact .inl ⟨n + n', traceUnder_add env s n n', by rwa [course_add]⟩
      · exact .inr ⟨n + n', hwait.of_later⟩
    · exact .inr ⟨0, hwait⟩

end Endless

/-! ## A command taken from the CMD channel (R141) -/

variable {p : Inputs w}

/-- The step under `p` takes the command `c`: `Offered` and `OfferedUnder` for one sample. -/
def Takes (c : Command w) (p : Inputs w) (s : State w) : Prop :=
  s.phase = .idle ∧ p.reset = false ∧ p.cmd = some c.word

theorem offered_iff_takes {c : Command} {s : State} : Offered c s ↔ Takes c s.sample s := Iff.rfl

theorem offeredUnder_iff_takes {env : Nat → Inputs w} : OfferedUnder env c s ↔ Takes c (env 0) s := Iff.rfl

theorem Takes.running (h : Takes c p s) : Running c (s.taking p).dst s.responses 0 (stepUnder p s) := by
  obtain ⟨hidle, hr, hc⟩ := h
  rw [stepUnder_offered hr hidle hc, ← s.taking_responses p]
  exact running_accept c (s.taking p)

theorem Takes.inFlight (h : Takes c p s) :
    InFlight c (s.taking p).dst s.responses (c.steps + 2) (eventsFrom c 0 c.steps) (stepUnder p s) :=
  .running (Nat.zero_add _) h.running

theorem Takes.eventUnder (h : Takes c p s) : eventUnder p s = some (.takeCmd c) := by
  obtain ⟨hidle, hr, hc⟩ := h
  exact eventUnder_offered hr hidle hc

/-- On a listed schedule a willing environment sees the transfers of the command. -/
theorem Takes.trace_willing {c : Command} {s : State} {rest more : List Inputs} (h : Takes c s.sample s)
    (hin : s.inputs = s.sample :: (rest ++ more)) (hlen : rest.length = c.steps + 2)
    (hw : ∀ p ∈ rest, p.isWilling = true) : trace (c.steps + 3) s = c.transfers := by
  have hnext : (stepUnder s.sample s).inputs = rest ++ more := by rw [stepUnder_inputs, hin]; rfl
  have hrest := InFlight.trace_willing (hlen ▸ h.inFlight) hnext hw
  rw [trace_succ _ hin, h.eventUnder, ← hlen, hrest, transfers_eq]
  rfl

section Endless

variable {env : Nat → Inputs w} (h : Takes c (env 0) s) (hr : NoReset env)
include h

theorem Takes.course_willing (hw : ∀ n, 1 ≤ n → n ≤ c.steps + 2 → (env n).isWilling = true) :
    Completed c (s.taking (env 0)).dst s.responses (course env s (c.steps + 3)) := by
  rw [show c.steps + 3 = 1 + (c.steps + 2) by omega, course_one_add, course_eq_stepsUnder]
  refine h.running.stepsUnder_willing (by simp) (List.forall_mem_map.mpr fun n hn => ?_)
  exact hw (1 + n) (by omega) (by have := List.mem_range.mp hn; omega)

include hr

theorem Takes.traceUnder_prefix (n : Nat) :
    traceUnder env s n <+: c.transfers ∨ c.transfers <+: traceUnder env s n := by
  rcases n with _ | n
  · exact .inl List.nil_prefix
  · rw [Nat.add_comm, traceUnder_one_add, h.eventUnder, transfers_eq]
    rcases h.inFlight.traceUnder_prefix (hr.later 1) n with ⟨_, es', hes, -⟩ | hdone
    · rw [hes]
      exact .inl ((List.prefix_cons_inj _).mpr (List.prefix_append _ es'))
    · exact .inr ((List.prefix_cons_inj _).mpr hdone)

theorem Takes.completes_or_waits :
    (∃ n, traceUnder env s n = c.transfers ∧
      Completed c (s.taking (env 0)).dst s.responses (course env s n)) ∨ ∃ n, WaitsForEver env s n := by
  rcases h.inFlight.completes_or_waits (hr.later 1) with ⟨n, htrace, hdone⟩ | ⟨n, hwait⟩
  · refine .inl ⟨1 + n, ?_, by rwa [course_one_add]⟩
    rw [traceUnder_one_add, h.eventUnder, htrace, transfers_eq]
    rfl
  · exact .inr ⟨1 + n, WaitsForEver.of_later (n := 1) hwait⟩

/-- The duties of the sink and of the requester together make the command complete (43_command_sequencer.md R150). -/
theorem Takes.completes_of_fair (hsink : SinkFair env s) (hreq : RequesterFair env s) :
    ∃ n, traceUnder env s n = c.transfers ∧
      Completed c (s.taking (env 0)).dst s.responses (course env s n) :=
  (h.completes_or_waits hr).resolve_right fun ⟨n, hwait⟩ => not_waitsForEver_of_fair hsink hreq n hwait

end Endless

end Sys2Proof.Machine

/-! SUPPORT. The beats of a command: which one is selected, the output as the cells of the beats in order, and when the
beats of a split are those of the whole (43_command_sequencer.md R142, R143, R154, R155). -/

namespace Sys2Proof.Machine

/-! ## Which beat is selected (R142) -/

theorem chunkBeat_ne_tailBeat (op : Op) : chunkBeat op ≠ tailBeat op := by
  cases op <;> decide

theorem beatFor_eq_chunkBeat_iff {op : Op} {n : Nat} : beatFor op n = some (chunkBeat op) ↔ chunkLen op ≤ n := by
  refine ⟨fun h => ?_, beatFor_chunk⟩
  have hcells := beatFor_cells h
  rw [chunkBeat_cells] at hcells
  exact hcells.2

theorem beatFor_eq_tailBeat_iff {op : Op} {n : Nat} :
    beatFor op n = some (tailBeat op) ↔ 1 ≤ n ∧ n < chunkLen op := by
  refine ⟨fun h => ⟨(beatFor_cells h).1.trans (beatFor_cells h).2, Nat.lt_of_not_le fun hc => ?_⟩, fun ⟨h1, hlt⟩ => ?_⟩
  · exact chunkBeat_ne_tailBeat op (Option.some.inj ((beatFor_chunk hc).symm.trans h))
  · obtain ⟨m, rfl⟩ := Nat.exists_eq_add_one.mpr h1
    exact beatFor_tail hlt

/-- The beat selected has one cell exactly when no whole chunk is left. -/
theorem beatFor_cells_eq_one_iff {op : Op} {n : Nat} {k : BeatKind} (h : beatFor op n = some k) :
    k.cells = 1 ↔ n < chunkLen op := by
  have hc : chunkLen op ≠ 1 := by cases op <;> decide
  rw [beatFor_cells_eq h]
  split
  next hle => exact iff_of_false hc (not_lt.mpr hle)
  next hlt => exact iff_of_true rfl (not_le.mp hlt)

/-! ## The output from the beats alone -/

/-- The cells of a list of beats in order, one step of the generator a beat, and the generator after them
(43_command_sequencer.md R143). -/
def runPlan (order : ByteOrder) : List BeatKind → Word64 → List Byte × Word64
  | [], s => ([], s)
  | k :: ks, s =>
    (dataCells k.cells (dataOf order k (lcgNext s)) ++ (runPlan order ks (lcgNext s)).1,
      (runPlan order ks (lcgNext s)).2)

theorem runPlan_append (order : ByteOrder) (ks ks' : List BeatKind) (s : Word64) :
    runPlan order (ks ++ ks') s =
      ((runPlan order ks s).1 ++ (runPlan order ks' (runPlan order ks s).2).1,
        (runPlan order ks' (runPlan order ks s).2).2) := by
  induction ks generalizing s with
  | nil => rfl
  | cons k ks ih => simp only [List.cons_append, runPlan, ih, List.append_assoc]

/-- At every byte order a chunk beat carries the cells of the main path. -/
theorem dataCells_chunkBeat (order : ByteOrder) (op : Op) (v : Word64) :
    dataCells (chunkLen op) (dataOf order (chunkBeat op) v) = mainCells order op v := by
  cases op with
  | letters => exact (mainCells_eq_dataCells .letters v).symm
  | bytes =>
    cases order with
    | little => exact (mainCells_eq_dataCells .bytes v).symm
    | big =>
      rw [dataCells, mainCells, chunkLen_bytes]
      refine List.map_congr_left fun j hj => ?_
      have hj : j < 8 := List.mem_range.mp hj
      rw [chunkBeat, dataCell_bchunk_big v hj, byteOf, show 8 * (7 - j) = 56 - 8 * j by omega]

theorem dataCells_tailBeat (order : ByteOrder) (op : Op) (v : Word64) :
    dataCells 1 (dataOf order (tailBeat op) v) = [tailCell op v] := by
  rw [tailCell_eq_dataCell order]
  rfl

/-- A command's cells and new seed follow from its beats. -/
theorem fill_eq_runPlan (order : ByteOrder) (op : Op) (n : Nat) (seed : Word64) :
    fill order op n seed = runPlan order (beatPlan op n) seed := by
  induction n using chunk_tail_induction op generalizing seed with
  | zero => rfl
  | chunk n h ih => rw [fill_chunk order seed h, beatPlan_chunk h, runPlan, ih, chunkBeat_cells, dataCells_chunkBeat]
  | tail n h ih => rw [fill_tail order seed h, beatPlan_tail h, runPlan, ih, tailBeat_cells, dataCells_tailBeat]; rfl

/-! ## The beats of a split -/

/-- The split of `n1 + n2` stands at a chunk boundary, or inside a tail that stays a tail (43_command_sequencer.md R155). -/
def SplitsBetweenBeats (op : Op) (n1 n2 : Nat) : Prop :=
  n1 % chunkLen op = 0 ∨ (n2 < chunkLen op ∧ n1 % chunkLen op + n2 < chunkLen op)

theorem splitsBetweenBeats_sub {op : Op} {n1 : Nat} (h : chunkLen op ≤ n1) (n2 : Nat) :
    SplitsBetweenBeats op (n1 - chunkLen op) n2 ↔ SplitsBetweenBeats op n1 n2 := by
  rw [SplitsBetweenBeats, SplitsBetweenBeats, ← Nat.mod_eq_sub_mod h]

theorem splitsBetweenBeats_iff_of_lt {op : Op} {n1 : Nat} (h : n1 < chunkLen op) (n2 : Nat) :
    SplitsBetweenBeats op n1 n2 ↔ n1 = 0 ∨ n1 + n2 < chunkLen op := by
  rw [SplitsBetweenBeats, Nat.mod_eq_of_lt h]
  omega

/-- The beats of a split are those of the whole exactly when it stands between two of them: whole chunks come off both
sides; inside a tail the rest must be a tail, or the whole has a chunk beat there. -/
theorem beatPlan_append_iff (op : Op) (n1 n2 : Nat) :
    beatPlan op n1 ++ beatPlan op n2 = beatPlan op (n1 + n2) ↔ SplitsBetweenBeats op n1 n2 := by
  induction n1 using chunk_tail_induction op with
  | zero => simp [beatPlan, beatPlanLoop, SplitsBetweenBeats]
  | chunk n h ih =>
    rw [beatPlan_chunk h, beatPlan_chunk (Nat.le_add_right_of_le h), Nat.sub_add_comm h, List.cons_append,
      List.cons_inj_right, ih, splitsBetweenBeats_sub h]
  | tail n h ih =>
    rw [splitsBetweenBeats_iff_of_lt (Nat.lt_of_succ_lt h)] at ih
    rw [splitsBetweenBeats_iff_of_lt h, beatPlan_tail h, List.cons_append]
    rcases Nat.lt_or_ge (n + 1 + n2) (chunkLen op) with hn | hn
    · rw [Nat.add_right_comm] at hn ⊢
      rw [beatPlan_tail hn, List.cons_inj_right, ih]
      omega
    · rw [beatPlan_chunk hn]
      exact iff_of_false (fun heq => chunkBeat_ne_tailBeat op (List.cons.inj heq).1.symm) (by omega)

/-- A split between beats writes the cells of the whole and returns its new seed. -/
theorem fill_add {op : Op} {n1 n2 : Nat} (h : SplitsBetweenBeats op n1 n2) (order : ByteOrder) (seed : Word64) :
    fill order op (n1 + n2) seed =
      ((fill order op n1 seed).1 ++ (fill order op n2 (fill order op n1 seed).2).1,
        (fill order op n2 (fill order op n1 seed).2).2) := by
  simp only [fill_eq_runPlan, ← (beatPlan_append_iff op n1 n2).mpr h, runPlan_append]

theorem chainChunks_eq_fill (order : ByteOrder) (op : Op) (k : Nat) (seed : Word64) :
    chainChunks order op k seed = fill order op (chunkLen op * k) seed := by
  induction k generalizing seed with
  | zero => rfl
  | succ k ih =>
    have hsplit : SplitsBetweenBeats op (chunkLen op) (chunkLen op * k) := .inl (Nat.mod_self _)
    rw [chainChunks, ih, Nat.mul_succ, Nat.add_comm, fill_add hsplit]

end Sys2Proof.Machine

/-! PROOFS. The statements of 43_command_sequencer.md. -/

namespace Sys2Proof.Machine

/-- Settles O44: after acceptance every one of the K + 2 moves left is made at its willing moment. -/
theorem layersAgreeInAWillingEnvironment : Obligations.LayersAgreeInAWillingEnvironment := by
  refine ⟨fun c s first rest more hoffer hin hlen hw => ?_, fun w c s env hoffer hw => ?_⟩
  · obtain rfl := s.sample_cons first _ hin
    obtain ⟨hruns, hmore⟩ := runs_stepsUnder (ps := s.sample :: rest) hin
    rw [List.length_cons, hlen] at hruns
    exact ⟨_, hruns, (offered_iff_takes.mp hoffer).running.stepsUnder_willing hlen hw, hmore⟩
  · exact (offeredUnder_iff_takes.mp hoffer).course_willing hw

/-- Settles O45: a stall keeps the moves left and a willing moment makes one; without an end, the environment either lets
every move be made or stalls one for ever. -/
theorem stallsDelayACommandAndNothingElse : Obligations.StallsDelayACommandAndNothingElse := by
  refine ⟨fun c s first rest more hoffer hin hr hw => ?_, fun w c s env hoffer hr => ⟨fun hsink hreq => ?_, ?_⟩⟩
  · obtain rfl := s.sample_cons first _ hin
    obtain ⟨ps, ⟨qs, rfl⟩, hdone⟩ := (offered_iff_takes.mp hoffer).inFlight.completed_of_willing hr hw
    have hruns := (runs_stepsUnder (ps := s.sample :: ps) (more := qs ++ more) (by simpa using hin)).1
    exact ⟨ps.length, _, by simp, hruns, hdone⟩
  · obtain ⟨n, -, hdone⟩ := (offeredUnder_iff_takes.mp hoffer).completes_of_fair hr hsink hreq
    exact ⟨n, hdone⟩
  · exact ((offeredUnder_iff_takes.mp hoffer).completes_or_waits hr).imp_left fun ⟨n, _, hdone⟩ => ⟨n, hdone⟩

/-- Settles O46: the transfers made and those to come are together the command's, from acceptance on. -/
theorem transfersOfOneCommandInOrder : Obligations.TransfersOfOneCommandInOrder := by
  refine ⟨fun c s first rest more hoffer hin hlen hw => ?_, fun w c => ?_, fun w c s env hoffer hr =>
    ⟨fun n => (offeredUnder_iff_takes.mp hoffer).traceUnder_prefix hr n, (offeredUnder_iff_takes.mp hoffer).completes_of_fair hr⟩⟩
  · obtain rfl := s.sample_cons first _ hin
    rw [(offered_iff_takes.mp hoffer).trace_willing hin hlen hw, Command.transfers, result_snd]
    rfl
  · rw [Command.transfers, result_snd]
    rfl

/-- Settles O55: every chunk boundary is a split between beats. -/
theorem chunkAlignedChainingReproduces : Obligations.ChunkAlignedChainingReproduces := fun order k seed =>
  ⟨chainChunks_eq_fill order .bytes k seed, chainChunks_eq_fill order .letters k seed⟩

/-- Settles O56: the output follows from the beats, so a split that keeps the beats keeps it. -/
theorem generalSplittingLaw : Obligations.GeneralSplittingLaw := by
  refine fun op n1 n2 => ⟨beatPlan_append_iff op n1 n2, fun h order seed => ?_⟩
  rw [fill_add h]
  exact ⟨rfl, rfl⟩

/-- Settles O28: acceptance is a move of IDLE, and the other moves do not read CMD or bind a destination. -/
theorem commandOfferedWhileBusyWaits : Obligations.CommandOfferedWhileBusyWaits := fun s hs =>
  ⟨Bool.eq_false_iff.mpr fun h => hs (s.cmdReady_iff.mp h),
    fun size seed => ⟨congrArg _ (takeCommand_busy .bytes size seed hs), congrArg _ (takeCommand_busy .letters size seed hs)⟩,
    fun _ _ cmd bind hin => step_cmd_bind_irrelevant hs hin cmd bind⟩

/-- Settles O31: the step is the stall or the selected beat. -/
theorem beatTransferAdvancesTheCommand : Obligations.BeatTransferAdvancesTheCommand := by
  intro s hp hrem hr
  obtain ⟨k, hs⟩ := Option.isSome_iff_exists.mp (s.selected_isSome_iff.mpr ⟨hp, hrem⟩)
  refine ⟨fun ho => ⟨_, step_eq_stepUnder s, ?_⟩, fun ho => ⟨s.beatOf k, k, _, out_of_selected hs, (selected_some hs).2,
    s.beatOf_n k, s.beatOf_off k, step_eq_stepUnder s, ?_⟩⟩
  · rw [stepUnder_stalled hr hs ho]
    exact ⟨s.advance_out, s.advance_S⟩
  · rw [stepUnder_beat hr hs ho]
    exact ⟨fun j hj => performBeat_read_cell s.advance hj, fun a ha => performBeat_read_other s.advance ha, by simp, by simp,
      (selected_rem (s := s.advance) hs).1, by simpa using hp, by simp⟩

/-- Settles O32: every sample of the stall is used up and nothing else changes. -/
theorem stallChangesNoRegister : Obligations.StallChangesNoRegister := by
  intro s stall more hin h
  obtain ⟨hr, hstall⟩ : (∀ p ∈ stall, p.reset = false) ∧ ∀ p ∈ stall, Stalls p s := by
    rcases h with ⟨hv, h⟩ | ⟨hv, h⟩
    · exact ⟨fun p hp => (h p hp).1, fun p hp => .inl ⟨hv, (h p hp).2⟩⟩
    · exact ⟨fun p hp => (h p hp).1, fun p hp => .inr ⟨hv, (h p hp).2⟩⟩
  obtain ⟨hruns, hmore⟩ := runs_stepsUnder hin
  rw [stepsUnder_stalled hr hstall] at hruns hmore
  exact ⟨_, hruns, ⟨rfl, rfl, rfl, rfl, rfl⟩, rfl, rfl, rfl, rfl, hmore⟩

/-- Settles O42: acceptance over the destination just bound. -/
theorem acceptanceStartsACommand : Obligations.AcceptanceStartsACommand := fun _ s hoffer =>
  ⟨_, step_eq_stepUnder s, (offered_iff_takes.mp hoffer).running⟩

/-- Settles O57: the new seed depends on the number of steps alone; the splits of the spec, evaluated. -/
theorem equalStepCountsGiveEqualSeeds : Obligations.EqualStepCountsGiveEqualSeeds := by
  refine ⟨fun order op n1 n2 seed h => ?_, by decide, by decide⟩
  rw [fill_snd, fill_snd, fill_snd, ← lcgIter_add, Nat.add_comm, h]

/-- Settles O27: in IDLE the two commands are acceptance; outside it CMD is not read. -/
theorem commandIsAcceptedInIdle : Obligations.CommandIsAcceptedInIdle :=
  ⟨fun _ size seed hs => ⟨congrArg _ (takeCommand_idle .bytes size seed hs),
      congrArg _ (takeCommand_idle .letters size seed hs)⟩,
    fun _ p _ cmd hs hin => step_cmd_bind_irrelevant hs hin cmd p.bind⟩

/-- Settles O29: the chunk beat from one chunk up, the tail beat below, and a smaller count stays below. -/
theorem beatSelectionTable : Obligations.BeatSelectionTable := by
  refine ⟨fun w r => ⟨beatFor_eq_chunkBeat_iff (op := .bytes), ?_, beatFor_eq_chunkBeat_iff (op := .letters), ?_,
    fun op => beatFor_eq_none op r.toNat⟩, ⟨rfl, rfl, rfl, rfl⟩, fun _ _ hp => selected_of_run hp,
    fun w op r r' hle htail => ?_⟩
  · exact (beatFor_eq_tailBeat_iff (op := .bytes)).trans (and_congr_right' Nat.lt_succ_iff)
  · exact (beatFor_eq_tailBeat_iff (op := .letters)).trans (and_congr_right' Nat.lt_succ_iff)
  · have hlt : r.toNat < chunkLen op :=
      htail.elim (fun h => (beatFor_cells_eq_one_iff h).mp rfl) fun h => (beatFor_cells_eq_one_iff h).mp rfl
    have hone := fun k h => (beatFor_cells_eq_one_iff (k := k) h).mpr (hle.trans_lt hlt)
    exact ⟨fun h => absurd (hone _ h) (by decide), fun h => absurd (hone _ h) (by decide)⟩

/-- Settles O34: with no beat left nothing is presented, and the end of beats changes `PHASE` alone. -/
theorem endOfBeatsNeedsNothing : Obligations.EndOfBeatsNeedsNothing := by
  intro s hp h0 hr
  refine ⟨Option.map_eq_none_iff.mpr ((selected_eq_none_iff hp).mpr h0), _, step_eq_stepUnder s, ?_⟩
  rw [stepUnder_endBeats hr hp h0]
  simp

/-- Settles O35: the response is `S`, and taking it changes `PHASE` alone. -/
theorem responseReturnsTheGeneratorState : Obligations.ResponseReturnsTheGeneratorState := by
  intro s hp hr ho
  refine ⟨(s.rsp_eq_some_iff s.S).mpr ⟨hp, rfl⟩, _, step_eq_stepUnder s, ?_⟩
  rw [stepUnder_respond hr hp ho]
  simp

end Sys2Proof.Machine

/-! PROOFS. The statement of 60_exceptions.md. -/

namespace Sys2Proof.Machine

/-- Settles O37: a step is the total step of the machine (R170), and `Fault` has no constructor. -/
theorem noStepFaults : Obligations.NoStepFaults :=
  ⟨fun s => ⟨_, step_eq_stepUnder s⟩, fun cause => nomatch cause⟩

end Sys2Proof.Machine

/-! SUPPORT. The reset input (70_reset_and_hazards.md R190, R191): it is no transfer, and a command that it abandons
completes over the cells already written when it is issued again. -/

namespace Sys2Proof.Machine

variable {w : Nat}

/-! ## The reset step (R190) -/

theorem step_reset {s : State} (hr : s.sample.reset = true) : step s = .next (resetStep s) := by
  rw [step_eq_stepUnder, stepUnder_reset hr]

theorem eventUnder_reset {p : Inputs w} (s : State w) (hr : p.reset = true) : eventUnder p s = none :=
  if_pos hr

/-! ## An abandoned command issued again (R191) -/

theorem State.taking_unbound {p : Inputs w} (s : State w) (hb : p.bind = none) : s.taking p = s.advance := by
  rw [State.taking, hb, State.bindDst_none]

variable {c : Command w} {prior : Memory} {rs : List Word64} {k : Nat} {s : State w}

theorem Running.off_le_size (h : Running c prior rs k s) : s.off.toNat ≤ c.size.toNat :=
  h.rem ▸ Nat.le_add_right _ _

/-- Output of the command written over a shorter piece of the same output hides that piece. -/
theorem CellsUpTo.overwrite {n n' : Nat} {m m' : Memory} (h : CellsUpTo c prior n m) (hn : n ≤ n')
    (h' : CellsUpTo c m n' m') : CellsUpTo c prior n' m' :=
  ⟨h'.1, fun p hp => (h'.2 p hp).trans (h.2 p (hn.trans hp))⟩

/-- Abandoned by reset, taken again and met by a willing environment, a command completes over the destination it was
first issued on. -/
theorem Running.completed_of_reissue {r p : Inputs w} {ps : List (Inputs w)} (h : Running c prior rs k s)
    (hr : r.reset = true) (hp : p.reset = false) (hc : p.cmd = some c.word) (hb : p.bind = none)
    (hlen : ps.length = c.steps + 2) (hw : ∀ q ∈ ps, q.isWilling = true) :
    Completed c prior rs (stepsUnder (r :: p :: ps) s) := by
  have htakes : Takes c p (resetStep s) := ⟨resetStep_phase s, hp, hc⟩
  have hdone := htakes.running.stepsUnder_willing hlen hw
  rw [State.taking_unbound _ hb, State.advance_dst, resetStep_dst, resetStep_responses, h.rsps] at hdone
  rw [stepsUnder, stepUnder_reset hr]
  exact ⟨hdone.phase, h.cells.overwrite h.off_le_size hdone.cells, hdone.rsps⟩

end Sys2Proof.Machine

/-! PROOFS. The statements of 70_reset_and_hazards.md. -/

namespace Sys2Proof.Machine

/-- Settles O48: the reset step keeps the cells below `OFF`, and the second issue of the command writes them again. -/
theorem abandonedCommandCanBeReissued : Obligations.AbandonedCommandCanBeReissued := by
  intro c prior rs k s r first rest more hrun hin hr hfirst hc hb hlen hw
  constructor
  · refine ⟨_, step_reset (by rwa [s.sample_cons r _ hin]), resetStep_phase s, ?_, ?_⟩
    · rw [resetStep_responses, hrun.rsps]
    · rw [resetStep_dst]
      exact hrun.cells
  · have hruns := (runs_stepsUnder (ps := r :: first :: rest) hin).1
    rw [List.length_cons, List.length_cons, hlen] at hruns
    exact ⟨_, hruns, hrun.completed_of_reissue hr hfirst hc hb hlen hw⟩

/-- Settles O39: the step is the reset step whatever the phase and the channels, and `A` and `C` are no state. -/
theorem resetWinsOverEveryRule : Obligations.ResetWinsOverEveryRule := by
  intro s hr
  obtain ⟨hcmd, hout, hrsp⟩ := State.signals_of_idle (resetStep_phase s)
  exact ⟨eventUnder_reset s hr,
    ⟨_, step_reset hr, resetStep_phase s, resetStep_rem s, resetStep_off s, resetStep_mode s, hcmd, hout, hrsp,
      resetStep_dst s, resetStep_responses s⟩,
    lcgNext_toNat⟩

end Sys2Proof.Machine

/-! SUPPORT. The command words that the decoder takes, the state that an operation fires in, and the step as `exec` of what
fires (30_encoding.md R61, R69, 43_command_sequencer.md section 2). -/

namespace Sys2Proof

/-- A number is a command word exactly when it fits the word, and then it is decoded as that word. -/
theorem decodeTableWord_eq_some_iff {n x : Nat} {i : Instr} :
    decodeTableWord n x = some i ↔ x < 2 ^ 129 ∧ decodeCmd (BitVec.ofNat 129 x) = i := by
  rw [decodeTableWord, decodeNumber]
  split_ifs with h
  · exact Option.some_inj.trans (and_iff_right h).symm
  · exact iff_of_false (by simp) fun hx => h hx.1

theorem decodeTableWord_eq_none {n x : Nat} (h : 2 ^ 129 ≤ x) : decodeTableWord n x = none :=
  Option.eq_none_iff_forall_ne_some.mpr fun _ hi => absurd (decodeTableWord_eq_some_iff.mp hi).1 (not_lt.mpr h)

end Sys2Proof

namespace Sys2Proof.Machine

variable {w : Nat}

/-! ## The state an operation fires in -/

theorem State.taking_bound {p : Inputs w} {s : State w} {cells : List Host.Cell} (hp : s.phase = .idle)
    (hb : p.bind = some cells) : s.taking p = { s.advance with dst := Memory.ofCells cells } := by
  simp [State.taking, State.bindDst, hp, hb]

/-- With a word placed by the host the operation fires in the state as it was, in IDLE and one sample further. -/
theorem State.withOffer_sampled (s : State w) (x : CmdWord w) :
    (s.withOffer x).sampled = { s with phase := .idle, draws := s.draws + 1 } :=
  State.taking_unbound _ rfl

/-! ## The step -/

theorem stepUnder_unoffered {p : Inputs w} {s : State w} (hr : p.reset = false) (hp : s.phase = .idle)
    (hc : p.cmd = none) : stepUnder p s = s.taking p := by
  simp [stepUnder, hr, fetch, betweenOps, hp, hc]

variable {s : State}

/-- What fires is executed in the sampled state, and the step is that alone. -/
theorem step_of_fetch {f : Firing} (hr : s.sample.reset = false) (hf : fetch s.sampled s.sample = some f) :
    step s = exec f.instr s.sampled := by
  simp [step, hr, hf]

theorem step_command {x : CmdWord} (hr : s.sample.reset = false) (hp : s.phase = .idle)
    (hc : s.sample.cmd = some x) : step s = exec (decodeCmd x) s.sampled :=
  step_of_fetch (f := .command (commandOf x)) hr (by simp [fetch, hp, hc])

theorem step_beat {k : BeatKind} (hr : s.sample.reset = false) (hs : s.selected = some k)
    (ho : s.sample.outReady = true) : step s = exec k.instr s.sampled := by
  obtain ⟨hp, hk⟩ := selected_some hs
  exact step_of_fetch (f := .beat k) hr (by simp [fetch, hp, ho, hk])

end Sys2Proof.Machine

/-! PROOFS. The statements on the sample command words, on what a step executes, and on the invariant at reset. -/

namespace Sys2Proof.Machine

/-- Settles O4: the four words decoded, and no wider number fits the command word. -/
theorem sampleCommandWordsDecode : Obligations.SampleCommandWordsDecode :=
  ⟨by decide, by decide, by decide, by decide, fun _ _ => decodeTableWord_eq_none⟩

/-- Settles O25: a beat operation is carried out only when it is the one selected. -/
theorem unselectedBeatChangesNothing : Obligations.UnselectedBeatChangesNothing := fun k s hs => by
  rw [exec_beat, runBeat_unselected hs]

/-- Settles O30: what fires is executed in the sampled state, and a word placed by the host is the command offered. -/
theorem stepRunsTheOperationThatFires : Obligations.StepRunsTheOperationThatFires := by
  refine ⟨fun s hr => ⟨fun _ hp hc => step_command hr hp hc, fun _ hs ho => step_beat hr hs ho⟩, fun s h => ?_,
    fun s cells hp hb => State.taking_bound hp hb, fun s n x i hi => ?_, step_eq_stepUnder⟩
  · exact h.elim s.sampled_busy s.taking_unbound
  · obtain ⟨-, rfl⟩ := decodeTableWord_eq_some_iff.mp hi
    rw [State.withFetchWord, step_command (x := BitVec.ofNat 129 x) rfl rfl rfl, State.withOffer_sampled]

/-- Settles O33: with nothing offered an idle step takes the sample and no more. -/
theorem idleWaitsForACommand : Obligations.IdleWaitsForACommand := by
  intro s hp hr hc
  refine ⟨_, step_eq_stepUnder s, ?_⟩
  rw [stepUnder_unoffered hr hp hc]
  exact ⟨by simp [SameRegisters], s.taking_responses _, fun hb => by rw [s.taking_unbound hb, s.advance_dst]⟩

/-- Settles O40: IDLE asks nothing of the registers, and the destination is empty. -/
theorem invariantHoldsAtReset : Obligations.InvariantHoldsAtReset :=
  have hreset := fun w => inv_of_idle (s := State.resetAt w) rfl (State.resetAt_dst_wf w)
  ⟨hreset _, hreset⟩

end Sys2Proof.Machine
